-- ==== Sys2Proof/Word.lean ====
section
/-! DEFINITION. The two word types of the machine: a byte (`REG_WIDTH`, `BYTE_WIDTH`) and a 16-bit address or
program counter (`PC_WIDTH`, `ADDR_WIDTH`), 00_scope.md rule R6. `a +8 b` and `a +16 b` of rule R8 are `BitVec` addition. -/

namespace Sys2Proof

abbrev Byte := BitVec 8
abbrev Addr := BitVec 16

end Sys2Proof
end

