-- ==== Sys2Proof/Syntax.lean ====
section
/-! DEFINITION. The instructions, one constructor per row of spec/opcode_table.json (30_encoding.md rule R86), and the
vocabulary of the dispatch table (46_dispatch_loop.md rule R167): mode tags, handlers, entries. -/

namespace Sys2Proof

/-- The six instructions of 30_encoding.md rule R86, in the table's order, each with its operand as R85 assembles it. -/
inductive Instr where
  /-- `BRK` (`HLT`), `00`: rule R160. -/
  | brk
  /-- `LDA zp`, `A5 zz`: rule R142; the zero-page address as it stands in the instruction. -/
  | ldaZp (zz : Byte)
  /-- `LDA #imm`, `A9 imm`: rule R141. -/
  | ldaImm (imm : Byte)
  /-- `TAX`, `AA`: rule R150. -/
  | tax
  /-- `LDA abs`, `AD ll hh`: rule R143; `a16` is `hh:ll`. -/
  | ldaAbs (a16 : Addr)
  /-- `INX`, `E8`: rule R155. -/
  | inx
  deriving DecidableEq, Repr

/-- The ten mode tags of 30_encoding.md rule R89. -/
inductive AddrMode where
  | immediate | zeroPage | zeroPageX | zeroPageY
  | absolute | absoluteX | absoluteY
  | indirectX | indirectY
  | noneAddressing
  deriving DecidableEq, Repr

/-- The four handlers of 46_dispatch_loop.md rule R167. -/
inductive Handler where
  | halt | lda | tax | inx
  deriving DecidableEq, Repr

/-- A row of the dispatch table: `(addressing mode, operand byte count, handler)` (R167). -/
structure DispatchEntry where
  mode : AddrMode
  operandBytes : Nat
  handler : Handler
  deriving DecidableEq, Repr

end Sys2Proof
end

