-- ==== Sys2Proof/Machine/Basics.lean ====
section
/-! DEFINITION. Byte-order and extension helpers, the fixed parameters of 00_scope.md rule R6, and the byte counts of the
mode tags (30_encoding.md rule R89). -/

namespace Sys2Proof.Machine

/-- `zext_16(b)` of rule R8: `0x00` in bits 15:8. -/
def zext16 (b : Byte) : Addr := b.setWidth 16

/-- `(hi << 8) | lo` of rule R8: the 16-bit value of two bytes (little-endian composition, R57). -/
def ofBytes (hi lo : Byte) : Addr := hi ++ lo

/-- `v[7:0]`. -/
def loByte (v : Addr) : Byte := v.extractLsb' 0 8

/-- `v[15:8]`. -/
def hiByte (v : Addr) : Byte := v.extractLsb' 8 8

/-- `P[i] <- b` on a byte, every other bit unchanged (the assignments of rule R130). -/
def setBit (p : Byte) (i : Nat) (b : Bool) : Byte :=
  if b then p ||| (1#8 <<< i) else p &&& ~~~(1#8 <<< i)

/-- `Z_BIT` (R6). -/
def zBit : Nat := 1
/-- `N_BIT` (R6). -/
def nBit : Nat := 7
/-- `LOAD_BASE` (R6). -/
def loadBase : Addr := 0x8000#16
/-- `LOAD_MAX_LEN`, `0x10000 - 0x8000` bytes (R6, R224). -/
def loadMaxLen : Nat := 0x8000
/-- `RESET_VECTOR`, its low byte (R6). -/
def resetVector : Addr := 0xFFFC#16
/-- `INTERPRET_START` (R6). -/
def interpretStart : Addr := 0x0000#16

end Sys2Proof.Machine

namespace Sys2Proof

/-- Operand bytes the dispatch loop skips (R89, third column; 90_conflicts.md C1 for Immediate). -/
def AddrMode.operandBytes : AddrMode → Nat
  | .immediate => 1
  | .zeroPage => 1
  | .zeroPageX => 1
  | .zeroPageY => 1
  | .absolute => 2
  | .absoluteX => 2
  | .absoluteY => 2
  | .indirectX => 1
  | .indirectY => 1
  | .noneAddressing => 0

/-- Does the handler resolve an address? (R167, column "resolver invoked".) -/
def Handler.resolvesAddress : Handler → Bool
  | .halt => false
  | .lda => true
  | .tax => false
  | .inx => false

/-- The mode tag of an instruction (R86). -/
def Instr.mode : Instr → AddrMode
  | .brk => .noneAddressing
  | .ldaZp _ => .zeroPage
  | .ldaImm _ => .immediate
  | .tax => .noneAddressing
  | .ldaAbs _ => .absolute
  | .inx => .noneAddressing

/-- The length in bytes: `1 + n`, `n` the operand byte count of the mode (R84). -/
def Instr.length (i : Instr) : Nat := 1 + i.mode.operandBytes

end Sys2Proof
end

