-- ==== Sys2Proof/Machine/State.lean ====
section
/-! DEFINITION. The state of the machine (10_state.md), the fault record (60_exceptions.md rules R190 to R196), the reasons
a step can stop, and the state right after reset. -/

namespace Sys2Proof.Machine

/-- `run_state` (10_state.md rule R30). -/
inductive RunState where
  | idle | running | halted | faulted
  deriving DecidableEq, Repr

/-- The instruction-stream source of a run (20_memory.md rule R69): `Mem` under `run`, `Rom(rom)` under `interpret`. -/
inductive StreamSource where
  | mem
  | rom (bytes : List Byte)
  deriving DecidableEq, Repr

/-- A recorded fault: kind and info of 60_exceptions.md rule R190; the code is `FaultRecord.code` (log 10). -/
inductive FaultRecord where
  /-- raised by a step at decode (R191): the byte and its position -/
  | unimplementedOpcode (op : Byte) (pc0 : Addr)
  /-- raised by the resolver on NoneAddressing (R192), unreachable from a run -/
  | invalidAddressingMode
  /-- raised by `load` (R193): the program's length -/
  | outOfRangeLoad (length : Nat)
  /-- raised by `IRead` under `interpret` (R194): the position past the end, not reduced modulo 65536 (R70) -/
  | fetchOutOfRange (position : Nat)
  deriving DecidableEq, Repr

/-- The memory `M` (R29): the cells that differ from what an unlisted address reads as, in canonical form (`Memory.wf`). -/
abbrev Memory := List Host.Cell

/-- The tuple of 10_state.md, and `src` and `pastTop`, the model's own fields (log 1, log 8). -/
structure State where
  /-- `register_a` (R20) -/
  a : Byte
  /-- `register_x` (R20) -/
  x : Byte
  /-- `register_y` (R20) -/
  y : Byte
  /-- `status` (R25): bit 7 N, bit 1 Z, the other bits plain storage (R26) -/
  p : Byte
  /-- `stack_pointer` (R28), inert -/
  sp : Byte
  /-- `program_counter` (R22) -/
  pc : Addr
  /-- `memory` (R29) -/
  mem : Memory
  /-- `run_state` (R30) -/
  runState : RunState
  /-- the fault record (R31) -/
  fault : Option FaultRecord
  /-- the run's instruction-stream source (R69): the model's own field, DESIGN CHOICE, log 1 -/
  src : StreamSource
  /-- under `interpret`, `pc` has been incremented past `0xFFFF`: positions "do not wrap onto the sequence" (R70), so a
  16-bit `pc` alone does not say which position is meant; the model's own field, DEDUCED, log 8 -/
  pastTop : Bool
  deriving DecidableEq, Repr

/-- Why a step answers a fault. -/
inductive Fault where
  /-- Raised by `step` when it is asked for in Faulted, with the record that stands there: the run is over, "Faulted:
  terminal", and its outcome is `Fault(reason)` (R165, R170, R201). SAFE: no next state is claimed (log 2). -/
  | terminal (reason : Option FaultRecord)
  deriving DecidableEq, Repr

/-- Why a step or a host action is given no meaning. -/
inductive Refusal where
  /-- An instruction without a meaning, by its mnemonic; raised by no arm of this model. SAFE. -/
  | notModelled (mnemonic : String)
  /-- Raised by `step` in Idle and Halted: no run is in progress, "a step is defined only when `run_state = Running`"
  (R165). SAFE (log 2). -/
  | notRunning
  /-- Raised by every host action while Running: "refused" (R232, R35; U1). SAFE (log 13). -/
  | hostWhileRunning
  /-- Raised by `load`, `run`, `load_and_run` and `interpret` in Faulted: "refused" (R232, R201). SAFE (log 13). -/
  | hostWhileFaulted
  deriving DecidableEq, Repr

/-- The machine right after reset. Power-on (R33) and `reset()` straight after power-on (R34) leave the same state: every
register zero, every memory byte `0x00` (nothing listed), Idle, no fault (log 5). The values of the model's own fields are
DESIGN CHOICE: `src` log 1, `pastTop` log 8. -/
def State.reset : State where
  a := 0x00#8
  x := 0x00#8
  y := 0x00#8
  p := 0x00#8
  sp := 0x00#8
  pc := 0x0000#16
  mem := []
  runState := .idle
  fault := none
  src := .mem
  pastTop := false

end Sys2Proof.Machine
end

