-- ==== Sys2Proof/Machine/Ops.lean ====
section
/-! DEFINITION. The named operations over memory (20_memory.md rules R51 to R56), registers, the instruction stream (R69),
taking a fault (60_exceptions.md rules R196, R199) and `reset`, the only way back from one (R201, R221). -/

namespace Sys2Proof.Machine

/-- A value, or the fault raised on the way to it (`raise Fault(kind, info)`, 00_scope.md rule R11). -/
inductive Checked (α : Type) where
  | ok (v : α)
  | raise (r : FaultRecord)
  deriving DecidableEq, Repr

/-- The next pseudocode statement: it runs only when nothing was raised before it (R11, R12). -/
def Checked.andThen {α β : Type} (c : Checked α) (f : α → Checked β) : Checked β :=
  match c with
  | .ok v => f v
  | .raise r => .raise r

/-! ## Memory -/

/-- What a byte nothing has written reads as: `0x00` (R33, R51). -/
def Memory.unlisted : Byte := 0x00#8

/-- The byte listed at `n`, or what an unlisted address reads as. -/
def Memory.get : Memory → Nat → Byte
  | [], _ => Memory.unlisted
  | (k, b) :: rest, n => if k = n then b else Memory.get rest n

/-- A cell in front of the rest, left out where it would say what an unlisted address reads as. -/
def Memory.cons (n : Nat) (v : Byte) (rest : Memory) : Memory :=
  if v = Memory.unlisted then rest else (n, v) :: rest

/-- Store `v` at `n`, keeping the list canonical. -/
def Memory.set : Memory → Nat → Byte → Memory
  | [], n, v => Memory.cons n v []
  | (k, b) :: rest, n, v =>
    if n < k then Memory.cons n v ((k, b) :: rest)
    else if n = k then Memory.cons n v rest
    else (k, b) :: Memory.set rest n v

/-- The addresses rise from `low`, lie in the address space, and no cell says what an unlisted address reads as. -/
def Memory.wfFrom : Nat → Memory → Bool
  | _, [] => true
  | low, (k, b) :: rest =>
    decide (low ≤ k) && decide (k < 2 ^ 16) && decide (b ≠ Memory.unlisted) && Memory.wfFrom (k + 1) rest

/-- The canonical form: equal memories are equal lists. -/
def Memory.wf (m : Memory) : Bool := Memory.wfFrom 0 m

/-- `MemRead(addr, 1)` (R51). -/
def Memory.read (m : Memory) (addr : Addr) : Byte := m.get addr.toNat

/-- `MemWrite(addr, 1, v)` (R52). -/
def Memory.write (m : Memory) (addr : Addr) (v : Byte) : Memory := m.set addr.toNat v

/-- `MemRead(addr, 2)` (R53); the successor of `0xFFFF` is `0x0000` (R55, log 7). -/
def Memory.read16 (m : Memory) (addr : Addr) : Addr := ofBytes (m.read (addr + 1#16)) (m.read addr)

/-- `MemWrite(addr, 2, v)`: low byte first (R54, R55). -/
def Memory.write16 (m : Memory) (addr : Addr) (v : Addr) : Memory :=
  (m.write addr (loByte v)).write (addr + 1#16) (hiByte v)

/-- `MemReadZP16(p)`: the high byte from the zero-page successor (R56). -/
def Memory.readZP16 (m : Memory) (p : Byte) : Addr := ofBytes (m.read (zext16 (p + 1#8))) (m.read (zext16 p))

/-- Bytes stored one after another at ascending addresses (the copy loop of R223). -/
def Memory.writeBytes : Memory → Addr → List Byte → Memory
  | m, _, [] => m
  | m, addr, b :: bs => Memory.writeBytes (m.write addr b) (addr + 1#16) bs

/-! ## Registers (00_scope.md rule R9: `x[i] <- v`, `pc <- target`) -/

def State.setA (v : Byte) (s : State) : State := { s with a := v }
def State.setX (v : Byte) (s : State) : State := { s with x := v }
def State.setY (v : Byte) (s : State) : State := { s with y := v }
def State.setP (v : Byte) (s : State) : State := { s with p := v }
def State.setSP (v : Byte) (s : State) : State := { s with sp := v }
def State.setPC (v : Addr) (s : State) : State := { s with pc := v }
def State.setMem (m : Memory) (s : State) : State := { s with mem := m }
def State.setRunState (r : RunState) (s : State) : State := { s with runState := r }
def State.setFault (f : Option FaultRecord) (s : State) : State := { s with fault := f }
def State.setSrc (c : StreamSource) (s : State) : State := { s with src := c }
def State.setPastTop (b : Bool) (s : State) : State := { s with pastTop := b }

/-- Will `pc` have passed `0xFFFF` after `n` more positions of a sequence? Under `Mem` nothing is noted: the stream wraps
with the address space (R70). -/
def State.pastTopAfter (n : Nat) (s : State) : Bool :=
  match s.src with
  | .mem => s.pastTop
  | .rom _ => s.pastTop || decide (2 ^ 16 ≤ s.pc.toNat + n)

/-- `pc <- pc +16 n` (R22, R24: modulo 65536, log 6), the passing of `0xFFFF` noted under `interpret` (log 8). -/
def State.advancePC (n : Nat) (s : State) : State :=
  (s.setPastTop (s.pastTopAfter n)).setPC (s.pc + BitVec.ofNat 16 n)

/-! ## The instruction stream -/

/-- The position of `pc` in the sequence, not reduced modulo 65536 (R70). -/
def State.pcIndex (s : State) : Nat := if s.pastTop then 2 ^ 16 + s.pc.toNat else s.pc.toNat

/-- The position in the sequence that the address `pos` names in a step: `pos` lies at or behind `pc`, so one that has
wrapped to a lower address is a position past `0xFFFF` (R70). -/
def State.streamIndex (s : State) (pos : Addr) : Nat := s.pcIndex + (pos - s.pc).toNat

/-- `IRead(src, a)` (R69): under `Mem` a memory read; under `Rom(rom)` the byte at the index, or the fault at or past the
end. Positions do not wrap onto the sequence, and one longer than 65536 bytes is reachable only in its first 65536 (R70,
log 8). -/
def State.iRead (s : State) (pos : Addr) : Checked Byte :=
  match s.src with
  | .mem => .ok (s.mem.read pos)
  | .rom bytes =>
    match (if s.streamIndex pos < 2 ^ 16 then bytes[s.streamIndex pos]? else none) with
    | some b => .ok b
    | none => .raise (.fetchOutOfRange (s.streamIndex pos))

/-- The next `n` bytes of the stream from `pos` on (R80: consecutive ascending positions), cut off before the
first that cannot be read. -/
def State.streamBytes (s : State) : Addr → Nat → List Byte
  | _, 0 => []
  | pos, n + 1 =>
    match s.iRead pos with
    | .ok b => b :: s.streamBytes (pos + 1#16) n
    | .raise _ => []

/-! ## Faults and the way out of them -/

/-- The cause codes of 60_exceptions.md rule R195. -/
def FaultRecord.code : FaultRecord → Nat
  | .unimplementedOpcode _ _ => 1
  | .invalidAddressingMode => 2
  | .outOfRangeLoad _ => 3
  | .fetchOutOfRange _ => 4

/-- The `info` of R190's table, in its order. -/
def FaultRecord.info : FaultRecord → List Nat
  | .unimplementedOpcode op pc0 => [op.toNat, pc0.toNat]
  | .invalidAddressingMode => []
  | .outOfRangeLoad length => [length]
  | .fetchOutOfRange position => [position]

/-- Taking a fault, whole (R196, R199): the record is written and the loop state becomes Faulted; no register, flag, memory
cell or stack is touched and control goes nowhere. `s` is the state with the assignments the step has made so far. -/
def State.takeFault (r : FaultRecord) (s : State) : State :=
  (s.setFault (some r)).setRunState .faulted

/-- `reset()` (R221), the only way out of Faulted beside power-on (R201): `x[Y]`, `SP` and memory are not touched. -/
def State.doReset (s : State) : State :=
  { s with
    a := 0x00#8
    x := 0x00#8
    p := 0x00#8
    pc := s.mem.read16 resetVector
    runState := .idle
    fault := none }

end Sys2Proof.Machine
end

