-- ==== Sys2Proof/Machine/Halt.lean ====
section
/-! DEFINITION. Halt (45_halt.md rules R160, R161). -/

namespace Sys2Proof.Machine

/-- `BRK` (R160): the loop state becomes Halted, "no state mutation beyond the already-advanced program counter". -/
def execBrk (s : State) : Host.Outcome State Fault Refusal :=
  .next ((s.advancePC 1).setRunState .halted)

end Sys2Proof.Machine
end

