-- ==== Sys2Proof/Machine/Flags.lean ====
section
/-! DEFINITION. The flag unit (41_flag_unit.md rules R130 to R132). -/

namespace Sys2Proof.Machine

/-- The two assignments of R130: `P[1] <- (v = 0)`, `P[7] <- v[7]`; bits 6:2 and 0 unchanged. -/
def znFlags (p v : Byte) : Byte := setBit (setBit p zBit (v == 0x00#8)) nBit (v.getLsbD 7)

/-- `SetZN(v)` (R130). -/
def State.setZN (v : Byte) (s : State) : State := s.setP (znFlags s.p v)

end Sys2Proof.Machine
end

