-- ==== Sys2Proof/Machine/Transfer.lean ====
section
/-! DEFINITION. Transfer-Accumulator-to-X (43_transfer.md rule R150). -/

namespace Sys2Proof.Machine

/-- The TAX and INX handlers end alike: `x[X] <- v; SetZN(x[X])` (R132). -/
def State.loadX (v : Byte) (s : State) : State := (s.setX v).setZN v

/-- `TAX` (R150), the whole step from `pc = pc0`. -/
def execTax (s : State) : Host.Outcome State Fault Refusal :=
  .next (((s.advancePC 1).loadX s.a).advancePC AddrMode.noneAddressing.operandBytes)

end Sys2Proof.Machine
end

