-- ==== Sys2Proof/Machine/Increment.lean ====
section
/-! DEFINITION. Increment-X (44_increment.md rules R155, R156). -/

namespace Sys2Proof.Machine

/-- `INX` (R155), the whole step from `pc = pc0`: the sum wraps at 256, the flags come from the new value. -/
def execInx (s : State) : Host.Outcome State Fault Refusal :=
  .next (((s.advancePC 1).loadX (s.x + 0x01#8)).advancePC AddrMode.noneAddressing.operandBytes)

end Sys2Proof.Machine
end

