-- ==== Sys2Proof/Machine/Operands.lean ====
section
/-! DEFINITION. The addressing-mode resolver with its ten mode tags (40_addressing_modes.md rules R110 to R123). The address
computed by each mode from its operand bytes is a function of its own; the resolver reads the operand bytes from the
instruction stream and applies it. -/

namespace Sys2Proof.Machine

/-- ZeroPage (R112). -/
def eaZeroPage (d8 : Byte) : Addr := zext16 d8

/-- ZeroPage,X and ZeroPage,Y (R113, R114): the sum wraps within 8 bits before it is zero-extended. -/
def eaZeroPageIndexed (d8 index : Byte) : Addr := zext16 (d8 + index)

/-- Absolute (R115). -/
def eaAbsolute (hi lo : Byte) : Addr := ofBytes hi lo

/-- Absolute,X and Absolute,Y (R116, R117): the sum wraps within 16 bits. -/
def eaAbsoluteIndexed (hi lo index : Byte) : Addr := ofBytes hi lo + zext16 index

/-- Indirect,X (R118): the indexed zero-page pointer, read with the zero-page wrap of R56. -/
def eaIndirectX (m : Memory) (d8 x : Byte) : Addr := m.readZP16 (d8 + x)

/-- Indirect,Y (R119): the pointer is not indexed; `y` is added to what it points to, modulo 65536. -/
def eaIndirectY (m : Memory) (d8 y : Byte) : Addr := m.readZP16 d8 + zext16 y

/-- One operand byte, at `pc` (R85, R110). -/
def State.withOperand8 (s : State) (f : Byte → Addr) : Checked Addr :=
  (s.iRead s.pc).andThen fun d8 => .ok (f d8)

/-- Two operand bytes, at `pc` and `pc +16 1`, the low byte first (R85, R110); `f` takes the high byte first. -/
def State.withOperand16 (s : State) (f : Byte → Byte → Addr) : Checked Addr :=
  (s.iRead s.pc).andThen fun lo => (s.iRead (s.pc + 1#16)).andThen fun hi => .ok (f hi lo)

/-- `EA(mode)` (R110), called with `pc` at the first operand byte. It changes no state (R121): it returns an address or the
fault raised on the way. -/
def State.effectiveAddress (s : State) : AddrMode → Checked Addr
  | .immediate => .ok s.pc
  | .zeroPage => s.withOperand8 eaZeroPage
  | .zeroPageX => s.withOperand8 fun d8 => eaZeroPageIndexed d8 s.x
  | .zeroPageY => s.withOperand8 fun d8 => eaZeroPageIndexed d8 s.y
  | .absolute => s.withOperand16 eaAbsolute
  | .absoluteX => s.withOperand16 fun hi lo => eaAbsoluteIndexed hi lo s.x
  | .absoluteY => s.withOperand16 fun hi lo => eaAbsoluteIndexed hi lo s.y
  | .indirectX => s.withOperand8 fun d8 => eaIndirectX s.mem d8 s.x
  | .indirectY => s.withOperand8 fun d8 => eaIndirectY s.mem d8 s.y
  | .noneAddressing => .raise .invalidAddressingMode

/-- `LoadOperand(mode, ea)` (R123): an immediate from the instruction stream, everything else from memory (log 12). -/
def State.loadOperand (s : State) (mode : AddrMode) (ea : Addr) : Checked Byte :=
  match mode with
  | .immediate => s.iRead ea
  | .zeroPage | .zeroPageX | .zeroPageY | .absolute | .absoluteX | .absoluteY | .indirectX | .indirectY
  | .noneAddressing => .ok (s.mem.read ea)

end Sys2Proof.Machine
end

