-- ==== Sys2Proof/Machine/Load.lean ====
section
/-! DEFINITION. Load-Accumulator (42_load.md rules R140 to R143). Each meaning is the whole step from `pc = pc0`: past the
opcode byte, the handler, past the operand bytes. The operand is the one the decoder assembled (R85, log 9). -/

namespace Sys2Proof.Machine

/-- The end of the LDA handler (R140): `x[A] <- v; SetZN(x[A])`. -/
def State.loadA (v : Byte) (s : State) : State := (s.setA v).setZN v

/-- `LDA #imm` (R141). -/
def execLdaImm (imm : Byte) (s : State) : Host.Outcome State Fault Refusal :=
  .next (((s.advancePC 1).loadA imm).advancePC AddrMode.immediate.operandBytes)

/-- `LDA zp` (R142). -/
def execLdaZp (zz : Byte) (s : State) : Host.Outcome State Fault Refusal :=
  .next (((s.advancePC 1).loadA (s.mem.read (eaZeroPage zz))).advancePC AddrMode.zeroPage.operandBytes)

/-- `LDA abs` (R143): the operand is the address, "used verbatim" (R115). -/
def execLdaAbs (a16 : Addr) (s : State) : Host.Outcome State Fault Refusal :=
  .next (((s.advancePC 1).loadA (s.mem.read a16)).advancePC AddrMode.absolute.operandBytes)

end Sys2Proof.Machine
end

