-- ==== Sys2Proof/Machine/Dispatch.lean ====
section
/-! DEFINITION. The meaning of each instruction, one arm per constructor of `Instr`. -/

namespace Sys2Proof.Machine

def exec (i : Instr) (s : State) : Host.Outcome State Fault Refusal :=
  match i with
  | .brk => Sys2Proof.Machine.execBrk s
  | .ldaZp zz => Sys2Proof.Machine.execLdaZp zz s
  | .ldaImm imm => Sys2Proof.Machine.execLdaImm imm s
  | .tax => Sys2Proof.Machine.execTax s
  | .ldaAbs a16 => Sys2Proof.Machine.execLdaAbs a16 s
  | .inx => Sys2Proof.Machine.execInx s

end Sys2Proof.Machine
end

