-- ==== Sys2Proof/WellFormed.lean ====
section
/-! DEFINITION. Well-formedness. An instruction has nothing to check: "no operand value that is illegal: every value
`0x00`-`0xFF` of an operand byte and every 16-bit absolute address is accepted" (30_encoding.md rule R88), and the operand
types admit exactly those. A row of the dispatch table has: the source calls a wrong one "an internal wiring defect (opcode
mapped to the wrong mode)" (60_exceptions.md rule R192). -/

namespace Sys2Proof

/-- Every instruction the syntax can write is well formed (R88); one arm per constructor, so that an instruction added
later has to say what it admits. -/
def Instr.wellFormed : Instr → Bool
  | .brk => true
  | .ldaZp _ => true
  | .ldaImm _ => true
  | .tax => true
  | .ldaAbs _ => true
  | .inx => true

/-- The loop skips the mode's fixed byte count (R89, R166 action 5). -/
def DispatchEntry.skipsModeBytes (e : DispatchEntry) : Bool := e.operandBytes == e.mode.operandBytes

/-- A handler that resolves an address has a mode that resolves one (R120: NoneAddressing is "invalid for any opcode that
resolves an address"). -/
def DispatchEntry.resolvable (e : DispatchEntry) : Bool :=
  !e.handler.resolvesAddress || e.mode != .noneAddressing

/-- A handler that takes no address is tagged NoneAddressing (R89; 90_conflicts.md C5). -/
def DispatchEntry.registerOnly (e : DispatchEntry) : Bool :=
  e.handler.resolvesAddress || e.mode == .noneAddressing

def DispatchEntry.wellFormed (e : DispatchEntry) : Bool :=
  e.skipsModeBytes && e.resolvable && e.registerOnly

end Sys2Proof
end

