-- ==== Sys2Proof/Decode.lean ====
section
/-! DEFINITION. The opcode bytes, the decoder, the encoder and the dispatch table (30_encoding.md rules R80 to R93,
46_dispatch_loop.md rule R167). -/

namespace Sys2Proof

/-- What the decoder answers on a list of bytes. -/
inductive Decoded where
  /-- an instruction, and the bytes behind it -/
  | instr (i : Instr) (rest : List Byte)
  /-- the first byte is none of the six opcodes (R87) -/
  | unimplemented (op : Byte)
  /-- the bytes end before the instruction does: byte number `missing` (from 0) is not there -/
  | truncated (missing : Nat)
  deriving DecidableEq, Repr

def opBrk : Byte := 0x00#8
def opLdaZp : Byte := 0xA5#8
def opLdaImm : Byte := 0xA9#8
def opTax : Byte := 0xAA#8
def opLdaAbs : Byte := 0xAD#8
def opInx : Byte := 0xE8#8

/-- Format OP8: one operand byte (R82). -/
def decodeOp8 (mk : Byte → Instr) : List Byte → Decoded
  | [] => .truncated 1
  | d8 :: rest => .instr (mk d8) rest

/-- Format OP16: a 16-bit operand, low byte first (R83). -/
def decodeOp16 (mk : Addr → Instr) : List Byte → Decoded
  | [] => .truncated 1
  | [_] => .truncated 2
  | lo :: hi :: rest => .instr (mk (Machine.ofBytes hi lo)) rest

/-- Decoding: the whole opcode byte chooses instruction and length (R80, R84, R86); every other byte is rejected (R87). -/
def decode : List Byte → Decoded
  | [] => .truncated 0
  | op :: rest =>
    if op = opBrk then .instr .brk rest
    else if op = opLdaZp then decodeOp8 .ldaZp rest
    else if op = opLdaImm then decodeOp8 .ldaImm rest
    else if op = opTax then .instr .tax rest
    else if op = opLdaAbs then decodeOp16 .ldaAbs rest
    else if op = opInx then .instr .inx rest
    else .unimplemented op

/-- The opcode byte of an instruction (R86). -/
def Instr.opcode : Instr → Byte
  | .brk => opBrk
  | .ldaZp _ => opLdaZp
  | .ldaImm _ => opLdaImm
  | .tax => opTax
  | .ldaAbs _ => opLdaAbs
  | .inx => opInx

/-- The operand bytes in stream order (formats IMP, OP8, OP16: R81 to R83). -/
def Instr.operand : Instr → List Byte
  | .brk => []
  | .ldaZp zz => [zz]
  | .ldaImm imm => [imm]
  | .tax => []
  | .ldaAbs a16 => [Machine.loByte a16, Machine.hiByte a16]
  | .inx => []

/-- The bytes of an instruction, at ascending positions of the stream (R80). -/
def encode (i : Instr) : List Byte := i.opcode :: i.operand

/-- The dispatch table of R167, "a data-driven mapping from opcode byte to (addressing mode, operand byte count,
handler)". -/
def dispatchTable : List (Byte × DispatchEntry) :=
  [(opBrk, ⟨.noneAddressing, 0, .halt⟩),
   (opLdaImm, ⟨.immediate, 1, .lda⟩),
   (opLdaZp, ⟨.zeroPage, 1, .lda⟩),
   (opLdaAbs, ⟨.absolute, 2, .lda⟩),
   (opTax, ⟨.noneAddressing, 0, .tax⟩),
   (opInx, ⟨.noneAddressing, 0, .inx⟩)]

/-- `DispatchTable(op)` of R166; `none` is its `Unrecognized`. -/
def dispatchEntry (op : Byte) : Option DispatchEntry := dispatchTable.lookup op

/-- The bytes of a table word: byte `k` of the instruction is bits `8k+7..8k` of `w`, bits at and above `nbits` zero, up to
the longest instruction (three bytes). -/
def tableBytes (nbits w : Nat) : List Byte :=
  let v := w % 2 ^ nbits
  [BitVec.ofNat 8 v, BitVec.ofNat 8 (v / 2 ^ 8), BitVec.ofNat 8 (v / 2 ^ 16)]

/-- The instruction the decoder reads from a word numbered as spec/opcode_table.json numbers it. -/
def decodeTableWord (nbits w : Nat) : Option Instr :=
  match decode (tableBytes nbits w) with
  | .instr i _ => some i
  | .unimplemented _ => none
  | .truncated _ => none

end Sys2Proof
end

