-- ==== Sys2Proof/Machine/Fetch.lean ====
section
/-! DEFINITION. Fetching an instruction, and the faults met on the way (46_dispatch_loop.md rule R166 actions 1 to 3;
60_exceptions.md rules R191, R194, R198). -/

namespace Sys2Proof.Machine

/-- What the decoder reads at `pc`: the longest instruction has three bytes (R80). No read has a side effect (R51), so
looking at bytes an instruction does not have cannot be observed (log 9). -/
def State.fetch (s : State) : Decoded := decode (s.streamBytes s.pc 3)

/-- `UnimplementedOpcode` (R191): `pc` has been advanced past the byte, no operand byte has been read. -/
def faultUnimplemented (op : Byte) (s : State) : Host.Outcome State Fault Refusal :=
  .next ((s.advancePC 1).takeFault (.unimplementedOpcode op s.pc))

/-- `FetchOutOfRange` (R194) at byte `missing` of the instruction: `pc` is `pc0` if the opcode fetch itself faulted, and
`pc0 +16 1` if an operand read did. -/
def faultFetch (missing : Nat) (s : State) : Host.Outcome State Fault Refusal :=
  .next ((if missing = 0 then s else s.advancePC 1).takeFault
    (.fetchOutOfRange (s.pcIndex + missing)))

/-- Store bytes where the next instruction is fetched, under `run`: at `pc` on, stream `Mem`, loop state Running. -/
def State.placeAtFetch (bytes : List Byte) (s : State) : State :=
  ((s.setMem (s.mem.writeBytes s.pc bytes)).setSrc .mem).setRunState .running

end Sys2Proof.Machine
end

