-- ==== Sys2Proof/Machine/Step.lean ====
section
/-! DEFINITION. One step (46_dispatch_loop.md rules R165, R166). -/

namespace Sys2Proof.Machine

/-- A step, defined only in Running (R165): the instruction at `pc` is decoded and executed, or the fault met in fetching
it is taken. -/
def step (s : State) : Host.Outcome State Fault Refusal :=
  match s.runState with
  | .running =>
    match s.fetch with
    | .instr i _ => exec i s
    | .unimplemented op => faultUnimplemented op s
    | .truncated missing => faultFetch missing s
  | .idle => .refused .notRunning
  | .halted => .refused .notRunning
  | .faulted => .fault (.terminal s.fault)

/-- `s` with a table word stored where `step` fetches its next instruction, ready to run it: the load and the `run` entry
that the host would perform (log 4). -/
def State.withFetchWord (s : State) (nbits w : Nat) : State := s.placeAtFetch (tableBytes nbits w)

end Sys2Proof.Machine
end

