-- ==== Sys2Proof/Machine/DispatchLoop.lean ====
section
/-! DEFINITION. The step as 46_dispatch_loop.md rule R166 writes it: dispatch table, resolver, handlers, operand skip. It is
the spec's second description of what `step` does; that the two agree is an obligation. -/

namespace Sys2Proof.Machine

/-- `LDA(mode)` (R140), called with `pc` at the first operand byte. -/
def handlerLda (mode : AddrMode) (s : State) : Checked State :=
  (s.effectiveAddress mode).andThen fun ea =>
    (s.loadOperand mode ea).andThen fun v => .ok ((s.setA v).setZN v)

/-- `handler(mode)`: action 4 of R166. The register-only handlers do not invoke the resolver (R167, C5). -/
def runHandler (e : DispatchEntry) (s : State) : Checked State :=
  match e.handler with
  | .halt => .ok (s.setRunState .halted)
  | .lda => handlerLda e.mode s
  | .tax => .ok ((s.setX s.a).setZN s.a)
  | .inx => .ok ((s.setX (s.x + 0x01#8)).setZN (s.x + 0x01#8))

/-- Actions 3 to 5 of R166, from the state with `pc` past the opcode byte. A handler's fault ends the step there (R11). -/
def dispatchOpcode (op : Byte) (s : State) : State :=
  match dispatchEntry op with
  | none => s.takeFault (.unimplementedOpcode op (s.pc - 1#16))
  | some e =>
    match runHandler e s with
    | .ok t => t.advancePC e.operandBytes
    | .raise r => s.takeFault r

/-- `Step(src)` of R166, for a state in Running. -/
def loopStep (s : State) : State :=
  match s.iRead s.pc with
  | .ok op => dispatchOpcode op (s.advancePC 1)
  | .raise r => s.takeFault r

end Sys2Proof.Machine
end

