-- ==== Sys2Proof/Machine/HostPort.lean ====
section
/-! DEFINITION. What the host may do to the machine while it is not Running: the entry points `reset`, `load`, `run`,
`load_and_run` and `interpret` (70_reset_and_hazards.md rules R221 to R228), their acceptance (R232), and direct access to
the state (10_state.md rule R35). Power-on (R220) is `State.reset`. `run` and `interpret` are their entry here; their loop
is `runLoop`. -/

namespace Sys2Proof.Machine

/-- A direct write (R35): a register, or memory through `MemWrite`. -/
inductive HostWrite where
  | a (v : Byte) | x (v : Byte) | y (v : Byte) | p (v : Byte) | sp (v : Byte)
  | pc (v : Addr)
  | mem8 (addr : Addr) (v : Byte)
  | mem16 (addr : Addr) (v : Addr)
  deriving DecidableEq, Repr

/-- A direct read (R35, R233: "read all state"). -/
inductive HostQuery where
  | a | x | y | p | sp | pc
  | mem8 (addr : Addr)
  | mem16 (addr : Addr)
  | runState | fault
  deriving DecidableEq, Repr

/-- What a direct read shows. -/
inductive HostValue where
  | byte (v : Byte)
  | word (v : Addr)
  | runState (r : RunState)
  | fault (f : Option FaultRecord)
  deriving DecidableEq, Repr

/-- A host action. -/
inductive HostAction where
  | reset
  | load (program : List Byte)
  | run
  | loadAndRun (program : List Byte)
  | interpret (rom : List Byte)
  | write (w : HostWrite)
  deriving DecidableEq, Repr

/-- R232, rows `reset` and direct access: accepted in Idle, Halted and Faulted. -/
def acceptedIfStopped (s t : State) : Host.Outcome State Fault Refusal :=
  match s.runState with
  | .running => .refused .hostWhileRunning
  | .idle => .next t
  | .halted => .next t
  | .faulted => .next t

/-- R232, rows `load`, `run`, `load_and_run`, `interpret`: accepted in Idle and Halted. -/
def acceptedIfSound (s t : State) : Host.Outcome State Fault Refusal :=
  match s.runState with
  | .running => .refused .hostWhileRunning
  | .idle => .next t
  | .halted => .next t
  | .faulted => .refused .hostWhileFaulted

/-- The memory `load` leaves: the program from the load base up, then the vector (R223, R225). -/
def loadedMemory (program : List Byte) (m : Memory) : Memory :=
  (m.writeBytes loadBase program).write16 resetVector loadBase

/-- `load(program)` (R223): the length is checked first, and a program that is too long writes nothing (R224). -/
def State.doLoad (program : List Byte) (s : State) : State :=
  if loadMaxLen < program.length then s.takeFault (.outOfRangeLoad program.length)
  else s.setMem (loadedMemory program s.mem)

/-- The entry of `run()` (R226): from the current `pc`, stream `Mem`. -/
def State.doRun (s : State) : State := (s.setSrc .mem).setRunState .running

/-- The entry of `interpret(rom)` (R228): `pc <- 0`, stream `Rom(rom)`, nothing else of the spec's state initialised. -/
def State.doInterpret (rom : List Byte) (s : State) : State :=
  (((s.setPC interpretStart).setSrc (.rom rom)).setPastTop false).setRunState .running

/-- `load(program); reset(); run()`, stopping after a rejected load (R227). -/
def State.doLoadAndRun (program : List Byte) (s : State) : State :=
  if loadMaxLen < program.length then s.doLoad program
  else (s.doLoad program).doReset.doRun

/-- An ordinary assignment with no side effect (R35). -/
def State.doWrite (w : HostWrite) (s : State) : State :=
  match w with
  | .a v => s.setA v
  | .x v => s.setX v
  | .y v => s.setY v
  | .p v => s.setP v
  | .sp v => s.setSP v
  | .pc v => s.setPC v
  | .mem8 addr v => s.setMem (s.mem.write addr v)
  | .mem16 addr v => s.setMem (s.mem.write16 addr v)

/-- A host action, given its meaning where R232 accepts it. -/
def hostAct (act : HostAction) (s : State) : Host.Outcome State Fault Refusal :=
  match act with
  | .reset => acceptedIfStopped s s.doReset
  | .load program => acceptedIfSound s (s.doLoad program)
  | .run => acceptedIfSound s s.doRun
  | .loadAndRun program => acceptedIfSound s (s.doLoadAndRun program)
  | .interpret rom => acceptedIfSound s (s.doInterpret rom)
  | .write w => acceptedIfStopped s (s.doWrite w)

/-- What a direct read shows; `none` while Running (R35, R232). -/
def hostRead (q : HostQuery) (s : State) : Option HostValue :=
  if s.runState = .running then none
  else some (match q with
    | .a => .byte s.a
    | .x => .byte s.x
    | .y => .byte s.y
    | .p => .byte s.p
    | .sp => .byte s.sp
    | .pc => .word s.pc
    | .mem8 addr => .byte (s.mem.read addr)
    | .mem16 addr => .word (s.mem.read16 addr)
    | .runState => .runState s.runState
    | .fault => .fault s.fault)

end Sys2Proof.Machine
end

