-- ==== Sys2Proof/Machine/RunLoop.lean ====
section
/-! DEFINITION. The run loop and its outcome (46_dispatch_loop.md rules R170 to R172), under fuel: the core has no step
budget, "a model's executor runs under fuel" (R171, log 20). -/

namespace Sys2Proof.Machine

/-- The tagged result of R170; `Continue` is a run that is still going. -/
inductive RunOutcome where
  | running
  | halted
  | fault (reason : Option FaultRecord)
  deriving DecidableEq, Repr

/-- The outcome a state shows the host (R30, R170); Idle shows none, no run having been started. -/
def State.outcome (s : State) : Option RunOutcome :=
  match s.runState with
  | .idle => none
  | .running => some .running
  | .halted => some .halted
  | .faulted => some (.fault s.fault)

/-- `RunLoop` after its entry, at most `fuel` steps of it: while Running, step. The state it returns is the run's final
state (R172) once that state is not Running. -/
def runLoop : Nat → State → State
  | 0, s => s
  | fuel + 1, s =>
    match step s with
    | .next t => runLoop fuel t
    | .fault _ => s
    | .refused _ => s

/-- A host action and the run it starts, at most `fuel` steps of it: `run()`, `interpret(rom)` and `load_and_run(program)`
as the host calls them (R226 to R228); an action that starts no run takes no step. -/
def actAndRun (fuel : Nat) (act : HostAction) (s : State) : Host.Outcome State Fault Refusal :=
  match hostAct act s with
  | .next t => .next (runLoop fuel t)
  | .fault r => .fault r
  | .refused r => .refused r

end Sys2Proof.Machine
end

