-- ==== Sys2Proof/Safety.lean ====
section
/-! DEFINITION. What claims about runs are stated in: the invariant of the state, the states the machine can come to be in,
and a run that has gone well. -/

namespace Sys2Proof.Machine

/-- The invariant: memory is in canonical form, and a fault is recorded exactly in Faulted (10_state.md rules R30, R31). -/
abbrev Inv (s : State) : Prop := s.mem.wf = true ∧ (s.fault.isSome = true ↔ s.runState = .faulted)

/-- The states the machine can come to be in: from power-on (R220), by its own steps and by the host's accepted actions
(R232). -/
inductive Reachable : State → Prop where
  | powerOn : Reachable State.reset
  | step {s t : State} : Reachable s → step s = .next t → Reachable t
  | host {s t : State} (act : HostAction) : Reachable s → hostAct act s = .next t → Reachable t

/-- A run has ended when it is in Halted or Faulted (46_dispatch_loop.md rule R172). -/
abbrev Ended (s : State) : Prop := s.runState = .halted ∨ s.runState = .faulted

/-- A safe run of `fuel` steps: it has met no fault. -/
abbrev SafeFor (fuel : Nat) (s : State) : Prop := (runLoop fuel s).runState ≠ .faulted

end Sys2Proof.Machine
end

