-- ==== Sys2Proof/Certificates/Slice0/Obligations.lean ====
section
/-! DEFINITION. The statements for the provers, from the numbered rules of spec/. A statement about a step holds under `run`
and under `interpret` unless it says otherwise: the stream's bytes are named through `iRead`. -/

namespace Sys2Proof.Claims

/-- `(P & 0x7D) | (v = 0 ? 0x02 : 0x00) | (v & 0x80)`, the closed form of 41_flag_unit.md rule R130. -/
def flagsAfter (p v : Byte) : Byte :=
  (p &&& 0x7D#8) ||| (if v = 0x00#8 then 0x02#8 else 0x00#8) ||| (v &&& 0x80#8)

/-- The six legal opcode bytes of 30_encoding.md rule R86. -/
def legalOpcodes : List Byte := [0x00#8, 0xA5#8, 0xA9#8, 0xAA#8, 0xAD#8, 0xE8#8]

/-- The state an instruction leaves, where it leaves one. -/
def after (i : Instr) (s : Machine.State) : Machine.State :=
  match Machine.exec i s with
  | .next t => t
  | .fault _ => s
  | .refused _ => s

/-- An outcome with its next state changed. -/
def mapNext (f : Machine.State → Machine.State) (o : Host.Outcome Machine.State Machine.Fault Machine.Refusal) :
    Host.Outcome Machine.State Machine.Fault Machine.Refusal :=
  match o with
  | .next t => .next (f t)
  | .fault r => .fault r
  | .refused r => .refused r

end Sys2Proof.Claims

open Sys2Proof Sys2Proof.Machine Sys2Proof.Claims

/-! ## Encoding -/

/-- 30_encoding.md R93's examples and its derived absolute form, byte for byte. -/
def Obligations.SpecEncodingExamplesDecode : Prop :=
  decode [0xA9#8, 0x05#8] = .instr (.ldaImm 0x05#8) [] ∧
  decode [0xA5#8, 0x10#8] = .instr (.ldaZp 0x10#8) [] ∧
  decode [0xAD#8, 0x34#8, 0x12#8] = .instr (.ldaAbs 0x1234#16) [] ∧
  decode [0xAA#8] = .instr .tax [] ∧
  decode [0xE8#8] = .instr .inx [] ∧
  decode [0x00#8] = .instr .brk []

/-- 30_encoding.md section 1 to 3 (R80 to R86): no bit of an encoding is dropped, whatever bytes follow. -/
def Obligations.DecodeOfEncodeIsTheInstruction : Prop :=
  ∀ (i : Instr) (rest : List Byte), i.wellFormed = true → decode (encode i ++ rest) = .instr i rest

/-- 30_encoding.md section 1 to 3: each word has one meaning, so the bytes an instruction was decoded from are its
encoding. -/
def Obligations.EncodeOfDecodeIsTheBytes : Prop :=
  ∀ (bytes : List Byte) (i : Instr) (rest : List Byte), decode bytes = .instr i rest → bytes = encode i ++ rest

/-- 30_encoding.md section 4 (R87): a byte is refused by name exactly when it is none of the six, and 250 are. -/
def Obligations.ExactlyTheOther250BytesAreIllegal : Prop :=
  (∀ (op : Byte) (rest : List Byte), decode (op :: rest) = .unimplemented op ↔ op ∉ legalOpcodes) ∧
  ((List.range 256).filter fun n => decode [BitVec.ofNat 8 n] = .unimplemented (BitVec.ofNat 8 n)).length = 250

/-! ## Memory and the instruction stream -/

/-- R52, through the host's write port: no address is protected, the written byte is read back, no other cell and no
register changes. -/
def Obligations.ByteWriteReadsBackAndChangesNothingElse : Prop :=
  ∀ (s : State) (addr : Addr) (v : Byte), Inv s → s.runState ≠ .running →
    ∃ t, hostAct (.write (.mem8 addr v)) s = .next t ∧ t.mem.read addr = v ∧
      (∀ q, q ≠ addr → t.mem.read q = s.mem.read q) ∧ { t with mem := s.mem } = s

/-- 20_memory.md section 2 and 3 (R53 to R55, R57): a 16-bit write puts the low byte at `addr`, the high byte at
`addr +16 1` (at `0xFFFF`: `0x0000`, the spec's decision D5, log 7), changes nothing else, and is read back whole. -/
def Obligations.WordWriteIsLittleEndianAndReadsBack : Prop :=
  ∀ (m : Memory) (addr v : Addr), m.wf = true →
    ((m.write16 addr v).read addr).toNat = v.toNat % 256 ∧
    ((m.write16 addr v).read (addr + 1#16)).toNat = v.toNat / 256 ∧
    (∀ q, q ≠ addr → q ≠ addr + 1#16 → (m.write16 addr v).read q = m.read q) ∧
    (m.write16 addr v).read16 addr = v

/-- R56: the high byte comes from the zero-page successor, which matters only at `0xFF`. -/
def Obligations.ZeroPagePointerReadStaysInTheZeroPage : Prop :=
  ∀ (m : Memory) (p : Byte),
    (m.readZP16 p).toNat =
      (m.read (BitVec.ofNat 16 p.toNat)).toNat + 256 * (m.read (BitVec.ofNat 16 ((p.toNat + 1) % 256))).toNat ∧
    (p ≠ 0xFF#8 → m.readZP16 p = m.read16 (BitVec.ofNat 16 p.toNat)) ∧
    (p = 0xFF#8 →
      (m.readZP16 p).toNat = (m.read 0x00FF#16).toNat + 256 * (m.read 0x0000#16).toNat ∧
      (m.read16 0x00FF#16).toNat = (m.read 0x00FF#16).toNat + 256 * (m.read 0x0100#16).toNat)

/-- 20_memory.md section 8 (R69, R70; decisions D15 and D16 of the spec): memory under `run`, the sequence or
`FetchOutOfRange` under `interpret`, whose positions do not wrap onto the sequence. A step reads at `pc` and behind it, so
an address below `pc`, and every address once `pc` has passed `0xFFFF`, is a position past `0xFFFF` (log 8). -/
def Obligations.StreamReadsMemoryOrTheSequence : Prop :=
  ∀ (s : State) (pos : Addr),
    (s.src = .mem → s.iRead pos = .ok (s.mem.read pos)) ∧
    (∀ rom b, s.src = .rom rom → s.pastTop = false → s.pc.toNat ≤ pos.toNat → rom[pos.toNat]? = some b →
      s.iRead pos = .ok b) ∧
    (∀ rom, s.src = .rom rom → s.pastTop = false → s.pc.toNat ≤ pos.toNat → rom.length ≤ pos.toNat →
      s.iRead pos = .raise (.fetchOutOfRange pos.toNat)) ∧
    (∀ rom, s.src = .rom rom → (s.pastTop = true ∨ pos.toNat < s.pc.toNat) →
      ∃ position, 65536 ≤ position ∧ position % 65536 = pos.toNat ∧ s.iRead pos = .raise (.fetchOutOfRange position))

/-! ## The resolver -/

/-- R111, R112, R113, R118, R119: the modes with at most one operand byte. Every sum is in `Nat`, modulo the width the rule
gives. -/
def Obligations.OneByteModesComputeTheirAddress : Prop :=
  (∀ s : State, s.effectiveAddress .immediate = .ok s.pc) ∧
  ∀ (s : State) (d8 : Byte), s.iRead s.pc = .ok d8 →
    (∃ ea, s.effectiveAddress .zeroPage = .ok ea ∧ ea.toNat = d8.toNat) ∧
    (∃ ea, s.effectiveAddress .zeroPageX = .ok ea ∧ ea.toNat = (d8.toNat + s.x.toNat) % 256) ∧
    (∃ ea, s.effectiveAddress .indirectX = .ok ea ∧
      ea.toNat = (s.mem.read (BitVec.ofNat 16 ((d8.toNat + s.x.toNat) % 256))).toNat +
        256 * (s.mem.read (BitVec.ofNat 16 (((d8.toNat + s.x.toNat) % 256 + 1) % 256))).toNat) ∧
    (∃ ea, s.effectiveAddress .indirectY = .ok ea ∧
      ea.toNat = ((s.mem.read (BitVec.ofNat 16 d8.toNat)).toNat +
        256 * (s.mem.read (BitVec.ofNat 16 ((d8.toNat + 1) % 256))).toNat + s.y.toNat) % 65536)

/-- R115, R116, R117: the modes with two operand bytes, the low byte first; under `run` Absolute is `MemRead(pc, 2)`. -/
def Obligations.TwoByteModesComputeTheirAddress : Prop :=
  (∀ (s : State) (lo hi : Byte), s.iRead s.pc = .ok lo → s.iRead (s.pc + 1#16) = .ok hi →
    (∃ ea, s.effectiveAddress .absolute = .ok ea ∧ ea.toNat = lo.toNat + 256 * hi.toNat) ∧
    (∃ ea, s.effectiveAddress .absoluteX = .ok ea ∧ ea.toNat = (lo.toNat + 256 * hi.toNat + s.x.toNat) % 65536) ∧
    (∃ ea, s.effectiveAddress .absoluteY = .ok ea ∧ ea.toNat = (lo.toNat + 256 * hi.toNat + s.y.toNat) % 65536)) ∧
  (∀ s : State, s.src = .mem → s.effectiveAddress .absolute = .ok (s.mem.read16 s.pc))

/-- 40_addressing_modes.md section 2: ZeroPage,Y as the spec derives it (R114), NoneAddressing always the configuration
fault (R120). -/
def Obligations.ZeroPageYWrapsAndNoneAddressingIsAFault : Prop :=
  (∀ (s : State) (d8 : Byte), s.iRead s.pc = .ok d8 →
    ∃ ea, s.effectiveAddress .zeroPageY = .ok ea ∧ ea.toNat = (d8.toNat + s.y.toNat) % 256) ∧
  (∀ s : State, s.effectiveAddress .noneAddressing = .raise .invalidAddressingMode) ∧
  (∀ (s : State) (mode : AddrMode), s.src = .mem → mode ≠ .noneAddressing → ∃ ea, s.effectiveAddress mode = .ok ea)

/-! ## The flag unit -/

/-- R130: exactly bits 1 and 7 of `P` are written, from the value alone. -/
def Obligations.FlagUnitWritesZeroAndNegativeOnly : Prop :=
  (∀ (s : State) (v : Byte), s.setZN v = { s with p := flagsAfter s.p v }) ∧
  (∀ p v : Byte,
    ((znFlags p v).getLsbD 1 = true ↔ v = 0x00#8) ∧
    ((znFlags p v).getLsbD 7 = true ↔ 0x80 ≤ v.toNat) ∧
    (∀ j, j ≠ 1 → j ≠ 7 → (znFlags p v).getLsbD j = p.getLsbD j)) ∧
  (∀ p u v : Byte, znFlags (znFlags p u) v = znFlags p v)

/-! ## The six instructions. Each statement: the bytes decode to it; it completes from every state, with exactly this next
state; a step whose stream holds those bytes at `pc` is it. `past` stands for the model's own field `pastTop` (log 8), of
which the rules say nothing: they are stated whatever it becomes, and PassingTheTopOfASequenceIsNoted says what that is. -/

/-- 42_load.md, `LDA #imm` (R141). Its exceptions line is the last clause: under `interpret`, `FetchOutOfRange` "if
`pc0 + 1 >= length(rom)`" (the spec's decision D16, log 12), the sum not reduced modulo 65536 and a sequence cut off behind
its first 65536 bytes (R70, log 8). -/
def Obligations.LdaImmediateLoadsItsOperandByte : Prop :=
  (∀ (imm : Byte) (rest : List Byte), decode (0xA9#8 :: imm :: rest) = .instr (.ldaImm imm) rest) ∧
  (∀ (imm : Byte) (s : State), ∃ past : Bool,
    exec (.ldaImm imm) s = .next { s with
      a := imm
      p := flagsAfter s.p imm
      pc := s.pc + 2#16
      pastTop := past }) ∧
  (∀ (s : State) (imm : Byte), s.runState = .running → s.iRead s.pc = .ok 0xA9#8 → s.iRead (s.pc + 1#16) = .ok imm →
    step s = exec (.ldaImm imm) s) ∧
  (∀ (s : State) (r : FaultRecord), s.runState = .running → s.iRead s.pc = .ok 0xA9#8 →
    s.iRead (s.pc + 1#16) = .raise r → ∃ past : Bool,
    step s = .next { s with pc := s.pc + 1#16, runState := .faulted, fault := some r, pastTop := past }) ∧
  (∀ (s : State) (rom : List Byte), s.runState = .running → s.src = .rom rom → s.iRead s.pc = .ok 0xA9#8 →
    min rom.length 65536 ≤ s.pc.toNat + 1 → ∃ past : Bool,
    step s = .next { s with
      pc := s.pc + 1#16
      runState := .faulted
      fault := some (.fetchOutOfRange (s.pc.toNat + 1))
      pastTop := past })

/-- 42_load.md, `LDA zp` (R142). Its exceptions line is the last clause: under `interpret`, `FetchOutOfRange` "if
`pc0 + 1 >= length(rom)`" (D16, log 12), the sum not reduced modulo 65536 and a sequence cut off behind its first 65536
bytes (R70, log 8). -/
def Obligations.LdaZeroPageLoadsFromTheZeroPage : Prop :=
  (∀ (zz : Byte) (rest : List Byte), decode (0xA5#8 :: zz :: rest) = .instr (.ldaZp zz) rest) ∧
  (∀ (zz : Byte) (s : State), ∃ past : Bool,
    exec (.ldaZp zz) s = .next { s with
      a := s.mem.read (BitVec.ofNat 16 zz.toNat)
      p := flagsAfter s.p (s.mem.read (BitVec.ofNat 16 zz.toNat))
      pc := s.pc + 2#16
      pastTop := past }) ∧
  (∀ (s : State) (zz : Byte), s.runState = .running → s.iRead s.pc = .ok 0xA5#8 → s.iRead (s.pc + 1#16) = .ok zz →
    step s = exec (.ldaZp zz) s) ∧
  (∀ (s : State) (r : FaultRecord), s.runState = .running → s.iRead s.pc = .ok 0xA5#8 →
    s.iRead (s.pc + 1#16) = .raise r → ∃ past : Bool,
    step s = .next { s with pc := s.pc + 1#16, runState := .faulted, fault := some r, pastTop := past }) ∧
  (∀ (s : State) (rom : List Byte), s.runState = .running → s.src = .rom rom → s.iRead s.pc = .ok 0xA5#8 →
    min rom.length 65536 ≤ s.pc.toNat + 1 → ∃ past : Bool,
    step s = .next { s with
      pc := s.pc + 1#16
      runState := .faulted
      fault := some (.fetchOutOfRange (s.pc.toNat + 1))
      pastTop := past })

/-- 42_load.md, `LDA abs` (R143), low byte first. Its exceptions line is the last two clauses: under `interpret`,
`FetchOutOfRange` "if `pc0 + 2 >= length(rom)`, raised at the first missing operand byte" (D16, log 12), the sums not reduced
modulo 65536 and a sequence cut off behind its first 65536 bytes (R70, log 8). -/
def Obligations.LdaAbsoluteLoadsFromItsAddress : Prop :=
  (∀ (lo hi : Byte) (rest : List Byte),
    decode (0xAD#8 :: lo :: hi :: rest) = .instr (.ldaAbs (BitVec.ofNat 16 (lo.toNat + 256 * hi.toNat))) rest) ∧
  (∀ (a16 : Addr) (s : State), ∃ past : Bool,
    exec (.ldaAbs a16) s = .next { s with
      a := s.mem.read a16
      p := flagsAfter s.p (s.mem.read a16)
      pc := s.pc + 3#16
      pastTop := past }) ∧
  (∀ (s : State) (lo hi : Byte), s.runState = .running → s.iRead s.pc = .ok 0xAD#8 → s.iRead (s.pc + 1#16) = .ok lo →
    s.iRead (s.pc + 2#16) = .ok hi → step s = exec (.ldaAbs (BitVec.ofNat 16 (lo.toNat + 256 * hi.toNat))) s) ∧
  (∀ (s : State) (r : FaultRecord), s.runState = .running → s.iRead s.pc = .ok 0xAD#8 →
    (s.iRead (s.pc + 1#16) = .raise r ∨ ∃ lo, s.iRead (s.pc + 1#16) = .ok lo ∧ s.iRead (s.pc + 2#16) = .raise r) →
    ∃ past : Bool,
    step s = .next { s with pc := s.pc + 1#16, runState := .faulted, fault := some r, pastTop := past }) ∧
  (∀ (s : State) (rom : List Byte), s.runState = .running → s.src = .rom rom → s.iRead s.pc = .ok 0xAD#8 →
    min rom.length 65536 ≤ s.pc.toNat + 1 → ∃ past : Bool,
    step s = .next { s with
      pc := s.pc + 1#16
      runState := .faulted
      fault := some (.fetchOutOfRange (s.pc.toNat + 1))
      pastTop := past }) ∧
  (∀ (s : State) (rom : List Byte), s.runState = .running → s.src = .rom rom → s.iRead s.pc = .ok 0xAD#8 →
    min rom.length 65536 = s.pc.toNat + 2 → ∃ past : Bool,
    step s = .next { s with
      pc := s.pc + 1#16
      runState := .faulted
      fault := some (.fetchOutOfRange (s.pc.toNat + 2))
      pastTop := past })

/-- R150, `TAX`. -/
def Obligations.TaxCopiesAToX : Prop :=
  (∀ rest : List Byte, decode (0xAA#8 :: rest) = .instr .tax rest) ∧
  (∀ s : State, ∃ past : Bool,
    exec .tax s = .next { s with x := s.a, p := flagsAfter s.p s.a, pc := s.pc + 1#16, pastTop := past }) ∧
  (∀ s : State, s.runState = .running → s.iRead s.pc = .ok 0xAA#8 → step s = exec .tax s)

/-- R155, `INX`, with its last corner case: 256 of them restore `x[X]`. -/
def Obligations.InxIncrementsXModulo256 : Prop :=
  (∀ rest : List Byte, decode (0xE8#8 :: rest) = .instr .inx rest) ∧
  (∀ s : State, ∃ past : Bool, exec .inx s = .next { s with
    x := BitVec.ofNat 8 ((s.x.toNat + 1) % 256)
    p := flagsAfter s.p (BitVec.ofNat 8 ((s.x.toNat + 1) % 256))
    pc := s.pc + 1#16
    pastTop := past }) ∧
  (∀ s : State, s.runState = .running → s.iRead s.pc = .ok 0xE8#8 → step s = exec .inx s) ∧
  (∀ s : State, ((after .inx)^[256] s).x = s.x)

/-- R160, `BRK`: the loop state and the advanced `pc`, nothing else. -/
def Obligations.BrkHaltsAndChangesNothingElse : Prop :=
  (∀ rest : List Byte, decode (0x00#8 :: rest) = .instr .brk rest) ∧
  (∀ s : State, ∃ past : Bool,
    exec .brk s = .next { s with pc := s.pc + 1#16, runState := .halted, pastTop := past }) ∧
  (∀ s : State, s.runState = .running → s.iRead s.pc = .ok 0x00#8 → step s = exec .brk s)

/-- R140, the handler for whichever mode: the byte at the resolved address goes to `x[A]` and to the flag unit, nothing else
changes, it raises nothing of its own, and a byte written to that address before is the byte loaded. -/
def Obligations.LoadHandlerLoadsTheResolvedByte : Prop :=
  (∀ (mode : AddrMode) (s : State) (ea : Addr) (v : Byte),
    s.effectiveAddress mode = .ok ea → s.loadOperand mode ea = .ok v →
    handlerLda mode s = .ok { s with a := v, p := flagsAfter s.p v }) ∧
  (∀ (mode : AddrMode) (s : State) (r : FaultRecord), handlerLda mode s = .raise r →
    s.effectiveAddress mode = .raise r ∨
      ∃ ea, s.effectiveAddress mode = .ok ea ∧ s.loadOperand mode ea = .raise r) ∧
  (∀ (mode : AddrMode) (s : State) (ea : Addr) (b : Byte), s.mem.wf = true → s.src = .mem →
    (s.setMem (s.mem.write ea b)).effectiveAddress mode = .ok ea →
    handlerLda mode (s.setMem (s.mem.write ea b)) =
      .ok { s with mem := s.mem.write ea b, a := b, p := flagsAfter s.p b })

/-- 10_state.md section 1 and 3 to 5 (R21, R25, R26, R28, R29): what each instruction leaves unchanged. No form of any
instruction stores to memory. The model's own field `pastTop` (log 8) changes under `interpret` only. -/
def Obligations.InstructionFrame : Prop :=
  ∀ (i : Instr) (s t : State), exec i s = .next t →
    t.y = s.y ∧ t.sp = s.sp ∧ t.fault = s.fault ∧ t.src = s.src ∧ (∀ addr, t.mem.read addr = s.mem.read addr) ∧
    (∀ j, j ≠ 1 → j ≠ 7 → t.p.getLsbD j = s.p.getLsbD j) ∧ (s.src = .mem → t.pastTop = s.pastTop) ∧
    (match i with
      | .ldaImm _ => t.x = s.x ∧ t.runState = s.runState
      | .ldaZp _ => t.x = s.x ∧ t.runState = s.runState
      | .ldaAbs _ => t.x = s.x ∧ t.runState = s.runState
      | .tax => t.a = s.a ∧ t.runState = s.runState
      | .inx => t.a = s.a ∧ t.runState = s.runState
      | .brk => t.a = s.a ∧ t.x = s.x ∧ t.p = s.p)

/-- 10_state.md section 3 (R27): after LDA, TAX and INX the two flags are those of the register just written, whatever `P`
was. -/
def Obligations.FlagsAreThoseOfTheRegisterWritten : Prop :=
  ∀ (i : Instr) (s t : State), exec i s = .next t →
    match i with
    | .brk => True
    | .tax => (t.p.getLsbD 1 = true ↔ t.x = 0x00#8) ∧ t.p.getLsbD 7 = t.x.getLsbD 7
    | .inx => (t.p.getLsbD 1 = true ↔ t.x = 0x00#8) ∧ t.p.getLsbD 7 = t.x.getLsbD 7
    | .ldaImm _ => (t.p.getLsbD 1 = true ↔ t.a = 0x00#8) ∧ t.p.getLsbD 7 = t.a.getLsbD 7
    | .ldaZp _ => (t.p.getLsbD 1 = true ↔ t.a = 0x00#8) ∧ t.p.getLsbD 7 = t.a.getLsbD 7
    | .ldaAbs _ => (t.p.getLsbD 1 = true ↔ t.a = 0x00#8) ∧ t.p.getLsbD 7 = t.a.getLsbD 7

/-! ## The step -/

/-- 46_dispatch_loop.md section 2: a step is `exec` of the decoded instruction at the same state, and nothing is added
around it. The second clause names the bytes one by one, at consecutive positions of the stream. -/
def Obligations.StepRunsTheDecodedInstruction : Prop :=
  (∀ (s : State) (i : Instr) (rest : List Byte), s.runState = .running → i.wellFormed = true →
    decode (s.streamBytes s.pc 3) = .instr i rest → step s = exec i s) ∧
  (∀ (s : State) (i : Instr), s.runState = .running → i.wellFormed = true →
    (∀ k b, (encode i)[k]? = some b → s.iRead (s.pc + BitVec.ofNat 16 k) = .ok b) → step s = exec i s)

/-- R166: decoding and executing is what the spec's own loop does, with its dispatch table, resolver, handlers and operand
skip, faults included, under both stream sources. Both sides read the stream through `iRead`, positions past `0xFFFF`
included (R70, log 8). -/
def Obligations.StepIsTheSpecsDispatchLoop : Prop :=
  ∀ s : State, s.runState = .running → step s = .next (loopStep s)

/-- R165: a step is defined only in Running, ends in Running, Halted or Faulted, and Running is entered by `run`. -/
def Obligations.StepIsDefinedExactlyWhileRunning : Prop :=
  (∀ s : State, (∃ t, step s = .next t) ↔ s.runState = .running) ∧
  (∀ s t : State, step s = .next t → t.runState = .running ∨ t.runState = .halted ∨ t.runState = .faulted) ∧
  (∀ s t : State, hostAct .run s = .next t → t.runState = .running)

/-- 60_exceptions.md section 1 (R191, R196; D9 and D11 are the spec's decisions, logs 10 and 11): an illegal opcode byte
advances `pc` past it and is recorded with its position; nothing else of the spec's state changes (`past`: log 8). -/
def Obligations.IllegalOpcodeIsTakenAsAFault : Prop :=
  ∀ (s : State) (op : Byte), s.runState = .running → s.iRead s.pc = .ok op → op ∉ legalOpcodes →
    ∃ past : Bool, step s = .next { s with
      pc := s.pc + 1#16
      runState := .faulted
      fault := some (.unimplementedOpcode op s.pc)
      pastTop := past }

/-- 60_exceptions.md section 1 (R194; D16, log 12): an opcode fetch past the end of the sequence, or past position `0xFFFF`
(R70, log 8), leaves `pc` where it was. -/
def Obligations.OpcodeFetchPastTheEndIsTakenAsAFault : Prop :=
  ∀ (s : State) (rom : List Byte), s.runState = .running → s.src = .rom rom →
    (s.pastTop = false → rom.length ≤ s.pc.toNat →
      step s = .next { s with runState := .faulted, fault := some (.fetchOutOfRange s.pc.toNat) }) ∧
    (s.pastTop = true →
      step s = .next { s with runState := .faulted, fault := some (.fetchOutOfRange (65536 + s.pc.toNat)) })

/-- 60_exceptions.md section 1 (R190, R195; the numbers are the spec's decision D10, log 10). The position is a number,
not reduced modulo 65536 (log 8). -/
def Obligations.FaultRecordsHaveTheirCodesAndInfo : Prop :=
  ∀ (op : Byte) (pos : Addr) (n position : Nat),
    ((FaultRecord.unimplementedOpcode op pos).code = 1 ∧
      (FaultRecord.unimplementedOpcode op pos).info = [op.toNat, pos.toNat]) ∧
    (FaultRecord.invalidAddressingMode.code = 2 ∧ FaultRecord.invalidAddressingMode.info = []) ∧
    ((FaultRecord.outOfRangeLoad n).code = 3 ∧ (FaultRecord.outOfRangeLoad n).info = [n]) ∧
    ((FaultRecord.fetchOutOfRange position).code = 4 ∧ (FaultRecord.fetchOutOfRange position).info = [position])

/-- 60_exceptions.md section 3 (R198 to R200): a faulting step changes `pc` by at most its one increment, the loop state and
the record (and the model's own `pastTop`), and records an unknown opcode or a fetch past the end (its position unreduced,
log 8). -/
def Obligations.FaultsArePrecise : Prop :=
  ∀ s t : State, step s = .next t → t.runState = .faulted →
    ∃ r, t.fault = some r ∧ (t.pc = s.pc ∨ t.pc = s.pc + 1#16) ∧
      t = { s with pc := t.pc, runState := .faulted, fault := some r, pastTop := t.pastTop } ∧
      ((∃ op, r = .unimplementedOpcode op s.pc ∧ t.pc = s.pc + 1#16) ∨
       (∃ k, k < 3 ∧ r = .fetchOutOfRange ((if s.pastTop then 65536 else 0) + s.pc.toNat + k) ∧ (t.pc = s.pc ↔ k = 0)))

/-- 46_dispatch_loop.md section 2 (R168; modulo 65536 is the spec's decision D4, log 6): `pc` moves by the bytes the
instruction has. -/
def Obligations.PcAdvancesByTheInstructionLength : Prop :=
  ∀ (s t : State) (i : Instr) (rest : List Byte), step s = .next t → s.fetch = .instr i rest →
    t.pc.toNat = (s.pc.toNat + (encode i).length) % 65536 ∧ (encode i).length = 1 + i.mode.operandBytes

/-- Log 8, the model's own field: a step notes that it has taken `pc` past `0xFFFF` under `interpret`, and nothing but the
entry of `interpret` takes the note back. -/
def Obligations.PassingTheTopOfASequenceIsNoted : Prop :=
  (∀ s t : State, step s = .next t →
    (t.pastTop = true ↔ s.pastTop = true ∨ (s.src ≠ .mem ∧ t.pc.toNat < s.pc.toNat))) ∧
  (∀ (s t : State) (act : HostAction), hostAct act s = .next t →
    t.pastTop = match act with
      | .interpret _ => false
      | .reset => s.pastTop
      | .load _ => s.pastTop
      | .run => s.pastTop
      | .loadAndRun _ => s.pastTop
      | .write _ => s.pastTop)

/-- 10_state.md section 1 and 3 to 5 (R21, R26, R28, R29): no step, faulting ones included, changes `x[Y]`, `SP`, memory, or
a bit of `P` other than 1 and 7. -/
def Obligations.NoStepChangesYSpMemoryOrReservedFlags : Prop :=
  ∀ s t : State, step s = .next t →
    t.y = s.y ∧ t.sp = s.sp ∧ t.mem = s.mem ∧ t.src = s.src ∧ t.p &&& 0x7D#8 = s.p &&& 0x7D#8

/-- 10_state.md section 4 and 40_addressing_modes.md section 3 (R28, R122): no step reads `x[Y]` or `SP`. -/
def Obligations.NoStepReadsYOrSp : Prop :=
  ∀ (s : State) (y sp : Byte),
    step { s with y := y, sp := sp } = mapNext (fun t => { t with y := y, sp := sp }) (step s)

/-- 10_state.md section 3 (R25: "No instruction in scope reads any flag"): with another `P` a step does the same to
everything but `P`, whose six other bits it keeps and whose Z and N it either keeps or leaves the same. -/
def Obligations.NoStepReadsAFlag : Prop :=
  ∀ (s t : State) (p : Byte), step s = .next t →
    ∃ q, step { s with p := p } = .next { t with p := q } ∧ q &&& 0x7D#8 = p &&& 0x7D#8 ∧
      (q &&& 0x82#8 = t.p &&& 0x82#8 ∨ (q = p ∧ t.p = s.p))

/-- 46_dispatch_loop.md section 4 (R175): the two execution styles do the same to the registers, for an instruction that
loads nothing from memory. -/
def Obligations.BothStylesAgreeWithoutMemoryOperands : Prop :=
  ∀ (s r : State) (i : Instr) (rest rest' : List Byte),
    s.runState = .running → r.runState = .running → s.fetch = .instr i rest → r.fetch = .instr i rest' →
    (i.mode = .immediate ∨ i.mode = .noneAddressing) →
    s.a = r.a → s.x = r.x → s.y = r.y → s.p = r.p → s.sp = r.sp →
    ∃ s' r', step s = .next s' ∧ step r = .next r' ∧
      s'.a = r'.a ∧ s'.x = r'.x ∧ s'.y = r'.y ∧ s'.p = r'.p ∧ s'.sp = r'.sp ∧ s'.runState = r'.runState ∧
      s'.pc - s.pc = r'.pc - r.pc

/-! ## Power-on, reset and the host's entry points -/

/-- 10_state.md section 7 (R33; Idle and no fault are the spec's decisions D7 and D11; the model's own `src` and `pastTop` are not claimed, logs 1 and 8):
every register and every memory byte is zero, and `reset()` straight after changes nothing (R34). -/
def Obligations.PowerOnStateIsAllZero : Prop :=
  State.reset.a = 0x00#8 ∧ State.reset.x = 0x00#8 ∧ State.reset.y = 0x00#8 ∧ State.reset.p = 0x00#8 ∧
  State.reset.sp = 0x00#8 ∧ State.reset.pc = 0x0000#16 ∧ (∀ addr, State.reset.mem.read addr = 0x00#8) ∧
  State.reset.runState = .idle ∧ State.reset.fault = none ∧
  hostAct .reset State.reset = .next State.reset

/-- 70_reset_and_hazards.md section 2 (R221; the loop state, the fault record and the acceptance are the spec's decision
D12, log 13): A, X and P are zeroed, `pc` is the vector, Y, SP and memory are kept. -/
def Obligations.ResetZeroesAXPAndReadsTheVector : Prop :=
  ∀ s : State, s.runState ≠ .running →
    hostAct .reset s = .next { s with
      a := 0x00#8, x := 0x00#8, p := 0x00#8
      pc := BitVec.ofNat 16 ((s.mem.read 0xFFFC#16).toNat + 256 * (s.mem.read 0xFFFD#16).toNat)
      runState := .idle, fault := none }

/-- 70_reset_and_hazards.md section 3 (R223; copy first, vector last is the spec's decision D14, log 15): an accepted `load`
puts the program at `0x8000` up and `0x8000` in the vector, and changes nothing else. -/
def Obligations.LoadStoresTheProgramAndTheVector : Prop :=
  ∀ (s : State) (program : List Byte), Inv s → (s.runState = .idle ∨ s.runState = .halted) → program.length ≤ 0x8000 →
    ∃ t, hostAct (.load program) s = .next t ∧ { t with mem := s.mem } = s ∧
      t.mem.read 0xFFFC#16 = 0x00#8 ∧ t.mem.read 0xFFFD#16 = 0x80#8 ∧
      (∀ k b, program[k]? = some b → k ≠ 0x7FFC → k ≠ 0x7FFD → t.mem.read (BitVec.ofNat 16 (0x8000 + k)) = b) ∧
      (∀ addr : Addr, addr ≠ 0xFFFC#16 → addr ≠ 0xFFFD#16 →
        (addr.toNat < 0x8000 ∨ 0x8000 + program.length ≤ addr.toNat) → t.mem.read addr = s.mem.read addr)

/-- 70_reset_and_hazards.md section 3 (R224; nothing written is the spec's decision D13, log 15). -/
def Obligations.TooLongLoadIsAFaultAndWritesNothing : Prop :=
  ∀ (s : State) (program : List Byte), (s.runState = .idle ∨ s.runState = .halted) → 0x8000 < program.length →
    hostAct (.load program) s =
      .next { s with runState := .faulted, fault := some (.outOfRangeLoad program.length) } ∧
    hostAct (.loadAndRun program) s = hostAct (.load program) s

/-- 70_reset_and_hazards.md section 4 (R227): `load_and_run` is `load; reset; run`, and its run begins at the first program
byte, with Y and SP kept. -/
def Obligations.LoadAndRunIsLoadThenResetThenRun : Prop :=
  ∀ (s : State) (program : List Byte), Inv s → (s.runState = .idle ∨ s.runState = .halted) → program.length ≤ 0x8000 →
    ∃ t u v, hostAct (.load program) s = .next t ∧ hostAct .reset t = .next u ∧ hostAct .run u = .next v ∧
      hostAct (.loadAndRun program) s = .next v ∧
      v.a = 0x00#8 ∧ v.x = 0x00#8 ∧ v.p = 0x00#8 ∧ v.y = s.y ∧ v.sp = s.sp ∧ v.pc = 0x8000#16 ∧
      v.runState = .running ∧ v.mem = t.mem ∧
      (∀ b rest, program = b :: rest → v.iRead v.pc = .ok b)

/-- 70_reset_and_hazards.md section 4 (R226, R228; D15 to D17 are the spec's decisions, log 12): the entries of `run` and
`interpret` change the loop state, the stream, and for `interpret` the `pc` (and the model's own `pastTop`, log 8). -/
def Obligations.RunAndInterpretEntries : Prop :=
  ∀ (s : State) (rom : List Byte), (s.runState = .idle ∨ s.runState = .halted) →
    hostAct .run s = .next { s with src := .mem, runState := .running } ∧
    hostAct (.interpret rom) s =
      .next { s with pc := 0x0000#16, src := .rom rom, runState := .running, pastTop := false }

/-- 70_reset_and_hazards.md section 4 (R232; D8, D12, D20, log 13): which action is accepted in which loop state, and that
every other is refused. -/
def Obligations.EntryPointsAreAcceptedAsTabled : Prop :=
  ∀ (s : State) (act : HostAction),
    ((∃ t, hostAct act s = .next t) ↔
      match act with
      | .reset => s.runState ≠ .running
      | .write _ => s.runState ≠ .running
      | .load _ => s.runState = .idle ∨ s.runState = .halted
      | .run => s.runState = .idle ∨ s.runState = .halted
      | .loadAndRun _ => s.runState = .idle ∨ s.runState = .halted
      | .interpret _ => s.runState = .idle ∨ s.runState = .halted) ∧
    ((∃ t, hostAct act s = .next t) ∨ ∃ r, hostAct act s = .refused r) ∧
    (∀ q, hostRead q s = none ↔ s.runState = .running)

/-- 10_state.md section 8 (R35; D20, log 14): a host write to a register is an ordinary assignment, and a host read shows
what stands there. -/
def Obligations.HostReadsAndAssignsRegisters : Prop :=
  ∀ (s : State) (v : Byte) (w addr : Addr), s.runState ≠ .running →
    hostAct (.write (.a v)) s = .next { s with a := v } ∧
    hostAct (.write (.x v)) s = .next { s with x := v } ∧
    hostAct (.write (.y v)) s = .next { s with y := v } ∧
    hostAct (.write (.p v)) s = .next { s with p := v } ∧
    hostAct (.write (.sp v)) s = .next { s with sp := v } ∧
    hostAct (.write (.pc w)) s = .next { s with pc := w } ∧
    hostRead .a s = some (.byte s.a) ∧ hostRead .x s = some (.byte s.x) ∧ hostRead .y s = some (.byte s.y) ∧
    hostRead .p s = some (.byte s.p) ∧ hostRead .sp s = some (.byte s.sp) ∧ hostRead .pc s = some (.word s.pc) ∧
    hostRead (.mem8 addr) s = some (.byte (s.mem.read addr)) ∧
    hostRead .runState s = some (.runState s.runState) ∧ hostRead .fault s = some (.fault s.fault)

/-- 20_memory.md section 7 (R66): the next fetch sees a byte the host has just written, here each of the one-byte
instructions. -/
def Obligations.HostWriteIsSeenByTheNextFetch : Prop :=
  ∀ (s : State) (i : Instr), Inv s → (s.runState = .idle ∨ s.runState = .halted) → i.mode = .noneAddressing →
    ∃ t u, hostAct (.write (.mem8 s.pc i.opcode)) s = .next t ∧ hostAct .run t = .next u ∧ step u = exec i u

/-! ## Invariants -/

/-- The state right after reset meets the invariant (10_state.md R30, R31, R33). -/
def Obligations.ResetMeetsTheInvariant : Prop := Inv State.reset

/-- Every step keeps memory canonical and the fault record in agreement with the loop state. -/
def Obligations.EveryStepKeepsTheInvariant : Prop :=
  ∀ s t : State, Inv s → step s = .next t → Inv t

/-- So does every accepted host action, `load` of any program among them. That a direct write cannot reach the loop state or
the fault record is the model's reading of "every piece of state" (10_state.md section 8, R35; log 14). -/
def Obligations.EveryHostActionKeepsTheInvariant : Prop :=
  ∀ (s t : State) (act : HostAction), Inv s → hostAct act s = .next t → Inv t

/-- The step lemma of ReachableStatesAreSoundAndNeverMiswired, over every state: from one that meets the invariant and
does not record `InvalidAddressingMode` (60_exceptions.md section 1, R192), every step and every accepted host action leads
to another such. For the host's direct writes it rests on log 14 (10_state.md section 8). -/
def Obligations.StepsAndHostActionsKeepSoundAndNeverMiswired : Prop :=
  ∀ s t : State, Inv s → s.fault ≠ some .invalidAddressingMode →
    (step s = .next t ∨ ∃ act, hostAct act s = .next t) → Inv t ∧ t.fault ≠ some .invalidAddressingMode

/-- Whatever the host does and however long it runs the machine: memory is canonical, a fault is recorded exactly in
Faulted, and it is never `InvalidAddressingMode` (60_exceptions.md section 1, R192). Which states are reachable rests on log
14: the host's direct writes reach neither the loop state nor the fault record (10_state.md section 8). -/
def Obligations.ReachableStatesAreSoundAndNeverMiswired : Prop :=
  ∀ s : State, Reachable s → Inv s ∧ s.fault ≠ some .invalidAddressingMode

/-! ## Runs -/

/-- 46_dispatch_loop.md section 3 (R172): once a run has ended, its final state is the same however much fuel it is
given. -/
def Obligations.AnEndedRunHasOneFinalState : Prop :=
  ∀ (s : State) (n k : Nat), Ended (runLoop n s) → runLoop (n + k) s = runLoop n s

/-- 10_state.md section 1 (R21: no instruction writes `x[Y]`), 4 (R28: `SP` is inert), 5 (R29: memory) and 6 (R31: the
record): no run of any length changes memory, `x[Y]` or `SP`, and a run that has met no fault keeps the record. -/
def Obligations.NoRunChangesMemoryYOrSp : Prop :=
  ∀ (s : State) (n : Nat),
    (runLoop n s).mem = s.mem ∧ (runLoop n s).y = s.y ∧ (runLoop n s).sp = s.sp ∧
    (SafeFor n s → (runLoop n s).fault = s.fault)

/-- 46_dispatch_loop.md section 3 (R171): under `interpret` every run ends, from any position, a sequence longer than 65536
bytes being reachable only in its first 65536 (20_memory.md section 8, R70; log 8). -/
def Obligations.InterpretedRunsEnd : Prop :=
  ∀ (s : State) (rom : List Byte), s.runState = .running → s.src = .rom rom →
    Ended (runLoop (min rom.length 65536 + 1) s)

/-- 20_memory.md section 8 (R70: "positions do not wrap onto the sequence"; log 8): under `interpret` a step that takes `pc`
past `0xFFFF` and goes on has come to `0x0000` exactly, and the next step is the fault at position 65536. -/
def Obligations.SequencePositionsDoNotWrap : Prop :=
  ∀ (s t : State) (rom : List Byte), s.src = .rom rom → step s = .next t → t.runState = .running →
    t.pc.toNat < s.pc.toNat →
    t.pc = 0x0000#16 ∧
      step t = .next { t with runState := .faulted, fault := some (.fetchOutOfRange 65536) }

/-- 46_dispatch_loop.md section 3 (R171): a memory filled with `0xE8` is executed for ever; after `n` steps `x[X]` and `pc`
have advanced by `n`. -/
def Obligations.MemoryFullOfIncrementsNeverHalts : Prop :=
  ∀ (s : State) (n : Nat), s.runState = .running → s.src = .mem → (∀ addr, s.mem.read addr = 0xE8#8) →
    (runLoop n s).runState = .running ∧ (runLoop n s).x = s.x + BitVec.ofNat 8 n ∧
    (runLoop n s).pc = s.pc + BitVec.ofNat 16 n ∧ (runLoop n s).a = s.a
end

