-- ==== Sys2Proof/Config.lean ====
section
/-! DEFINITION. What 00_scope.md rule R6 leaves to the implementation. The widths of R6 are the types of Word.lean; its
fixed literals (`LOAD_BASE`, `RESET_VECTOR`, the flag bits) are in Machine/Basics.lean and its opcode bytes in Decode.lean,
where a correction is one edit. `PC_OVERFLOW` and `ADDR16_OVERFLOW` stand at the spec's `wrap` (log 6, log 7) and
`HAS_INTERPRET` at `true` (log 12). -/

namespace Sys2Proof.Config

/-- `STACK_PAGE_BASE`, the one OPEN parameter (R6, R28; U6): uninterpreted, and read by nothing in the model, as no rule
reads it (log 16). -/
opaque stackPageBase : Addr

end Sys2Proof.Config
end

