-- ==== Sys2Proof/Laws/Basics.lean ====
section
/-! SUPPORT. The byte helpers as arithmetic on `Nat`, and the decoder's answers by length. -/

namespace Sys2Proof.Machine

@[simp] theorem zext16_toNat (b : Byte) : (zext16 b).toNat = b.toNat := by
  have := b.isLt
  simp only [zext16, BitVec.toNat_setWidth]
  omega

theorem ofBytes_toNat (hi lo : Byte) : (ofBytes hi lo).toNat = lo.toNat + 256 * hi.toNat := by
  have := lo.isLt
  rw [ofBytes, BitVec.toNat_append, ← Nat.shiftLeft_add_eq_or_of_lt (by omega), Nat.shiftLeft_eq]
  omega

@[simp] theorem loByte_toNat (v : Addr) : (loByte v).toNat = v.toNat % 256 := by
  simp [loByte, BitVec.extractLsb'_toNat]

@[simp] theorem hiByte_toNat (v : Addr) : (hiByte v).toNat = v.toNat / 256 := by
  have := v.isLt
  simp only [hiByte, BitVec.extractLsb'_toNat, Nat.shiftRight_eq_div_pow]
  omega

/-- A 16-bit value is composed of its two bytes, and has the bytes it was composed of. -/
@[simp] theorem ofBytes_hiByte_loByte (v : Addr) : ofBytes (hiByte v) (loByte v) = v := by
  apply BitVec.eq_of_toNat_eq
  rw [ofBytes_toNat, hiByte_toNat, loByte_toNat]
  omega

@[simp] theorem loByte_ofBytes (hi lo : Byte) : loByte (ofBytes hi lo) = lo := by
  apply BitVec.eq_of_toNat_eq
  have := lo.isLt
  rw [loByte_toNat, ofBytes_toNat]
  omega

@[simp] theorem hiByte_ofBytes (hi lo : Byte) : hiByte (ofBytes hi lo) = hi := by
  apply BitVec.eq_of_toNat_eq
  have := lo.isLt
  rw [hiByte_toNat, ofBytes_toNat]
  omega

end Sys2Proof.Machine

namespace Sys2Proof

theorem decodeOp8_cases (mk : Byte → Instr) (bytes : List Byte) :
    (bytes = [] ∧ decodeOp8 mk bytes = .truncated 1) ∨
      ∃ d8 rest, bytes = d8 :: rest ∧ decodeOp8 mk bytes = .instr (mk d8) rest := by
  cases bytes with
  | nil => exact .inl ⟨rfl, rfl⟩
  | cons d8 rest => exact .inr ⟨d8, rest, rfl, rfl⟩

theorem decodeOp16_cases (mk : Addr → Instr) (bytes : List Byte) :
    (bytes = [] ∧ decodeOp16 mk bytes = .truncated 1) ∨
      (∃ lo, bytes = [lo] ∧ decodeOp16 mk bytes = .truncated 2) ∨
      ∃ lo hi rest, bytes = lo :: hi :: rest ∧ decodeOp16 mk bytes = .instr (mk (Machine.ofBytes hi lo)) rest := by
  match bytes with
  | [] => exact .inl ⟨rfl, rfl⟩
  | [lo] => exact .inr (.inl ⟨lo, rfl, rfl⟩)
  | lo :: hi :: rest => exact .inr (.inr ⟨lo, hi, rest, rfl, rfl⟩)

/-- The decoder says which byte is missing: the one after those it was given, and never a fourth. -/
theorem decode_truncated {bytes : List Byte} {k : Nat} (h : decode bytes = .truncated k) :
    k = bytes.length ∧ k < 3 := by
  cases bytes with
  | nil => cases h; exact ⟨rfl, by omega⟩
  | cons op rest =>
    have h8 : ∀ mk, decodeOp8 mk rest = .truncated k → k = rest.length + 1 ∧ k < 3 := by
      intro mk hk
      rcases decodeOp8_cases mk rest with ⟨rfl, he⟩ | ⟨d8, r, -, he⟩ <;> rw [he] at hk <;> cases hk
      exact ⟨rfl, by omega⟩
    have h16 : ∀ mk, decodeOp16 mk rest = .truncated k → k = rest.length + 1 ∧ k < 3 := by
      intro mk hk
      rcases decodeOp16_cases mk rest with ⟨rfl, he⟩ | ⟨lo, rfl, he⟩ | ⟨lo, hi, r, -, he⟩ <;> rw [he] at hk <;> cases hk
      · exact ⟨rfl, by omega⟩
      · exact ⟨rfl, by omega⟩
    simp only [decode] at h
    repeat' split at h
    all_goals first | exact h8 _ h | exact h16 _ h | cases h

end Sys2Proof
end

