-- ==== Sys2Proof/Laws/Memory.lean ====
section
/-! SUPPORT. The memory operations: every one keeps the canonical form, a byte read after a byte write, and equal reads make
equal memories. -/

namespace Sys2Proof.Machine

theorem Memory.wfFrom_nil (low : Nat) : Memory.wfFrom low [] = true := rfl

theorem Memory.wfFrom_cons {low k : Nat} {b : Byte} {rest : Memory} :
    Memory.wfFrom low ((k, b) :: rest) = true ↔
      low ≤ k ∧ k < 2 ^ 16 ∧ b ≠ Memory.unlisted ∧ Memory.wfFrom (k + 1) rest = true := by
  simp [Memory.wfFrom, and_assoc]

theorem Memory.wfFrom_mono {low low' : Nat} {m : Memory} (h : Memory.wfFrom low m = true) (hle : low' ≤ low) :
    Memory.wfFrom low' m = true := by
  cases m with
  | nil => rfl
  | cons c rest =>
    obtain ⟨k, b⟩ := c
    rw [Memory.wfFrom_cons] at h ⊢
    exact ⟨hle.trans h.1, h.2⟩

/-- Below its first address a canonical memory lists nothing. -/
theorem Memory.get_below {low n : Nat} {m : Memory} (h : Memory.wfFrom low m = true) (hn : n < low) :
    m.get n = Memory.unlisted := by
  induction m generalizing low with
  | nil => rfl
  | cons c rest ih =>
    obtain ⟨k, b⟩ := c
    obtain ⟨h1, -, -, h4⟩ := Memory.wfFrom_cons.1 h
    have hk : k ≠ n := by omega
    simp only [Memory.get, if_neg hk]
    exact ih h4 (by omega)

theorem Memory.cons_wf {low n : Nat} {v : Byte} {rest : Memory} (hlow : low ≤ n) (hn : n < 2 ^ 16)
    (h : Memory.wfFrom (n + 1) rest = true) : Memory.wfFrom low (Memory.cons n v rest) = true := by
  unfold Memory.cons
  split
  · exact Memory.wfFrom_mono h (by omega)
  · next hv => exact Memory.wfFrom_cons.2 ⟨hlow, hn, hv, h⟩

theorem Memory.set_wfFrom {low n : Nat} {m : Memory} (v : Byte) (h : Memory.wfFrom low m = true) (hlow : low ≤ n)
    (hn : n < 2 ^ 16) : Memory.wfFrom low (m.set n v) = true := by
  induction m generalizing low with
  | nil => exact Memory.cons_wf hlow hn rfl
  | cons c rest ih =>
    obtain ⟨k, b⟩ := c
    obtain ⟨h1, h2, h3, h4⟩ := Memory.wfFrom_cons.1 h
    unfold Memory.set
    split
    · next hlt => exact Memory.cons_wf hlow hn (Memory.wfFrom_cons.2 ⟨hlt, h2, h3, h4⟩)
    · split
      · next heq => exact Memory.cons_wf hlow hn (heq ▸ h4)
      · exact Memory.wfFrom_cons.2 ⟨h1, h2, h3, ih h4 (by omega)⟩

theorem Memory.get_cons {n q : Nat} {v : Byte} {rest : Memory} (h : Memory.wfFrom (n + 1) rest = true) :
    (Memory.cons n v rest).get q = if q = n then v else rest.get q := by
  unfold Memory.cons
  by_cases hv : v = Memory.unlisted
  · rw [if_pos hv]
    split
    · next hq => rw [hq, hv]; exact Memory.get_below h (by omega)
    · rfl
  · rw [if_neg hv]
    simp only [Memory.get, eq_comm (a := n)]

theorem Memory.get_set {low n q : Nat} {m : Memory} {v : Byte} (h : Memory.wfFrom low m = true) :
    (m.set n v).get q = if q = n then v else m.get q := by
  induction m generalizing low with
  | nil => exact Memory.get_cons rfl
  | cons c rest ih =>
    obtain ⟨k, b⟩ := c
    obtain ⟨-, h2, h3, h4⟩ := Memory.wfFrom_cons.1 h
    unfold Memory.set
    split
    · next hlt => exact Memory.get_cons (Memory.wfFrom_cons.2 ⟨hlt, h2, h3, h4⟩)
    · split
      · next heq =>
        rw [Memory.get_cons (heq ▸ h4)]
        by_cases hq : q = n
        · rw [if_pos hq, if_pos hq]
        · rw [if_neg hq, if_neg hq]
          exact (if_neg (by omega)).symm
      · simp only [Memory.get, ih h4]
        by_cases hk : k = q
        · have hq : q ≠ n := by omega
          simp [hk, hq]
        · simp [hk]

/-! ## The primitives of 20_memory.md -/

/-- A read after a write (R51, R52): the written byte there, every other cell as before. -/
theorem Memory.read_write {m : Memory} (h : m.wf = true) (addr q : Addr) (v : Byte) :
    (m.write addr v).read q = if q = addr then v else m.read q := by
  simp only [Memory.read, Memory.write, Memory.get_set h, BitVec.toNat_inj]

theorem Memory.write_wf {m : Memory} (h : m.wf = true) (addr : Addr) (v : Byte) : (m.write addr v).wf = true :=
  Memory.set_wfFrom v h (Nat.zero_le _) addr.isLt

theorem Memory.write16_wf {m : Memory} (h : m.wf = true) (addr v : Addr) : (m.write16 addr v).wf = true :=
  Memory.write_wf (Memory.write_wf h _ _) _ _

theorem Memory.writeBytes_wf {m : Memory} (h : m.wf = true) (addr : Addr) (bytes : List Byte) :
    (m.writeBytes addr bytes).wf = true := by
  induction bytes generalizing m addr with
  | nil => exact h
  | cons b bs ih => exact ih (Memory.write_wf h addr b) (addr + 1#16)

theorem Memory.nil_wf : Memory.wf [] = true := rfl

@[simp] theorem Memory.read_nil (addr : Addr) : Memory.read [] addr = 0x00#8 := rfl

/-- Two canonical memories that read alike everywhere are the same list. -/
theorem Memory.eq_of_get {low : Nat} {m m' : Memory} (h : Memory.wfFrom low m = true) (h' : Memory.wfFrom low m' = true)
    (hget : ∀ n, n < 2 ^ 16 → m.get n = m'.get n) : m = m' := by
  induction m generalizing low m' with
  | nil =>
    cases m' with
    | nil => rfl
    | cons c rest =>
      obtain ⟨k, b⟩ := c
      obtain ⟨-, h2, h3, -⟩ := Memory.wfFrom_cons.1 h'
      have := hget k h2
      simp only [Memory.get, if_true] at this
      exact absurd this.symm h3
  | cons c rest ih =>
    obtain ⟨k, b⟩ := c
    obtain ⟨h1, h2, h3, h4⟩ := Memory.wfFrom_cons.1 h
    cases m' with
    | nil =>
      have := hget k h2
      simp only [Memory.get, if_true] at this
      exact absurd this h3
    | cons c' rest' =>
      obtain ⟨k', b'⟩ := c'
      obtain ⟨h1', h2', h3', h4'⟩ := Memory.wfFrom_cons.1 h'
      have hk : k = k' := by
        rcases Nat.lt_trichotomy k k' with hlt | heq | hgt
        · have := hget k h2
          rw [Memory.get_below (Memory.wfFrom_cons.2 ⟨le_refl k', h2', h3', h4'⟩) hlt] at this
          simp only [Memory.get, if_true] at this
          exact absurd this h3
        · exact heq
        · have := hget k' h2'
          rw [Memory.get_below (Memory.wfFrom_cons.2 ⟨le_refl k, h2, h3, h4⟩) hgt] at this
          simp only [Memory.get, if_true] at this
          exact absurd this.symm h3'
      subst hk
      have hb : b = b' := by simpa [Memory.get] using hget k h2
      subst hb
      have hrest : rest = rest' := by
        refine ih h4 h4' fun n hn => ?_
        by_cases hkn : k = n
        · rw [Memory.get_below h4 (by omega), Memory.get_below h4' (by omega)]
        · simpa [Memory.get, hkn] using hget n hn
      rw [hrest]

theorem Memory.ext_read {m m' : Memory} (h : m.wf = true) (h' : m'.wf = true)
    (hread : ∀ addr, m.read addr = m'.read addr) : m = m' := by
  refine Memory.eq_of_get h h' fun n hn => ?_
  have := hread (BitVec.ofNat 16 n)
  simpa only [Memory.read, BitVec.toNat_ofNat, Nat.mod_eq_of_lt hn] using this

end Sys2Proof.Machine
end

