-- ==== Sys2Proof/Laws/State.lean ====
section
/-! SUPPORT. One lemma per field per register update, true by rfl, so that no proof unfolds a record update; and the same
for the composed updates every instruction ends in (`advancePC`, `takeFault`, `doReset`). -/

namespace Sys2Proof.Machine

section setA
variable (v : Byte) (s : State)
@[simp] theorem State.setA_a : (s.setA v).a = v := rfl
@[simp] theorem State.setA_x : (s.setA v).x = s.x := rfl
@[simp] theorem State.setA_y : (s.setA v).y = s.y := rfl
@[simp] theorem State.setA_p : (s.setA v).p = s.p := rfl
@[simp] theorem State.setA_sp : (s.setA v).sp = s.sp := rfl
@[simp] theorem State.setA_pc : (s.setA v).pc = s.pc := rfl
@[simp] theorem State.setA_mem : (s.setA v).mem = s.mem := rfl
@[simp] theorem State.setA_runState : (s.setA v).runState = s.runState := rfl
@[simp] theorem State.setA_fault : (s.setA v).fault = s.fault := rfl
@[simp] theorem State.setA_src : (s.setA v).src = s.src := rfl
@[simp] theorem State.setA_pastTop : (s.setA v).pastTop = s.pastTop := rfl
end setA

section setX
variable (v : Byte) (s : State)
@[simp] theorem State.setX_a : (s.setX v).a = s.a := rfl
@[simp] theorem State.setX_x : (s.setX v).x = v := rfl
@[simp] theorem State.setX_y : (s.setX v).y = s.y := rfl
@[simp] theorem State.setX_p : (s.setX v).p = s.p := rfl
@[simp] theorem State.setX_sp : (s.setX v).sp = s.sp := rfl
@[simp] theorem State.setX_pc : (s.setX v).pc = s.pc := rfl
@[simp] theorem State.setX_mem : (s.setX v).mem = s.mem := rfl
@[simp] theorem State.setX_runState : (s.setX v).runState = s.runState := rfl
@[simp] theorem State.setX_fault : (s.setX v).fault = s.fault := rfl
@[simp] theorem State.setX_src : (s.setX v).src = s.src := rfl
@[simp] theorem State.setX_pastTop : (s.setX v).pastTop = s.pastTop := rfl
end setX

section setY
variable (v : Byte) (s : State)
@[simp] theorem State.setY_a : (s.setY v).a = s.a := rfl
@[simp] theorem State.setY_x : (s.setY v).x = s.x := rfl
@[simp] theorem State.setY_y : (s.setY v).y = v := rfl
@[simp] theorem State.setY_p : (s.setY v).p = s.p := rfl
@[simp] theorem State.setY_sp : (s.setY v).sp = s.sp := rfl
@[simp] theorem State.setY_pc : (s.setY v).pc = s.pc := rfl
@[simp] theorem State.setY_mem : (s.setY v).mem = s.mem := rfl
@[simp] theorem State.setY_runState : (s.setY v).runState = s.runState := rfl
@[simp] theorem State.setY_fault : (s.setY v).fault = s.fault := rfl
@[simp] theorem State.setY_src : (s.setY v).src = s.src := rfl
@[simp] theorem State.setY_pastTop : (s.setY v).pastTop = s.pastTop := rfl
end setY

section setP
variable (v : Byte) (s : State)
@[simp] theorem State.setP_a : (s.setP v).a = s.a := rfl
@[simp] theorem State.setP_x : (s.setP v).x = s.x := rfl
@[simp] theorem State.setP_y : (s.setP v).y = s.y := rfl
@[simp] theorem State.setP_p : (s.setP v).p = v := rfl
@[simp] theorem State.setP_sp : (s.setP v).sp = s.sp := rfl
@[simp] theorem State.setP_pc : (s.setP v).pc = s.pc := rfl
@[simp] theorem State.setP_mem : (s.setP v).mem = s.mem := rfl
@[simp] theorem State.setP_runState : (s.setP v).runState = s.runState := rfl
@[simp] theorem State.setP_fault : (s.setP v).fault = s.fault := rfl
@[simp] theorem State.setP_src : (s.setP v).src = s.src := rfl
@[simp] theorem State.setP_pastTop : (s.setP v).pastTop = s.pastTop := rfl
end setP

section setSP
variable (v : Byte) (s : State)
@[simp] theorem State.setSP_a : (s.setSP v).a = s.a := rfl
@[simp] theorem State.setSP_x : (s.setSP v).x = s.x := rfl
@[simp] theorem State.setSP_y : (s.setSP v).y = s.y := rfl
@[simp] theorem State.setSP_p : (s.setSP v).p = s.p := rfl
@[simp] theorem State.setSP_sp : (s.setSP v).sp = v := rfl
@[simp] theorem State.setSP_pc : (s.setSP v).pc = s.pc := rfl
@[simp] theorem State.setSP_mem : (s.setSP v).mem = s.mem := rfl
@[simp] theorem State.setSP_runState : (s.setSP v).runState = s.runState := rfl
@[simp] theorem State.setSP_fault : (s.setSP v).fault = s.fault := rfl
@[simp] theorem State.setSP_src : (s.setSP v).src = s.src := rfl
@[simp] theorem State.setSP_pastTop : (s.setSP v).pastTop = s.pastTop := rfl
end setSP

section setPC
variable (v : Addr) (s : State)
@[simp] theorem State.setPC_a : (s.setPC v).a = s.a := rfl
@[simp] theorem State.setPC_x : (s.setPC v).x = s.x := rfl
@[simp] theorem State.setPC_y : (s.setPC v).y = s.y := rfl
@[simp] theorem State.setPC_p : (s.setPC v).p = s.p := rfl
@[simp] theorem State.setPC_sp : (s.setPC v).sp = s.sp := rfl
@[simp] theorem State.setPC_pc : (s.setPC v).pc = v := rfl
@[simp] theorem State.setPC_mem : (s.setPC v).mem = s.mem := rfl
@[simp] theorem State.setPC_runState : (s.setPC v).runState = s.runState := rfl
@[simp] theorem State.setPC_fault : (s.setPC v).fault = s.fault := rfl
@[simp] theorem State.setPC_src : (s.setPC v).src = s.src := rfl
@[simp] theorem State.setPC_pastTop : (s.setPC v).pastTop = s.pastTop := rfl
end setPC

section setMem
variable (v : Memory) (s : State)
@[simp] theorem State.setMem_a : (s.setMem v).a = s.a := rfl
@[simp] theorem State.setMem_x : (s.setMem v).x = s.x := rfl
@[simp] theorem State.setMem_y : (s.setMem v).y = s.y := rfl
@[simp] theorem State.setMem_p : (s.setMem v).p = s.p := rfl
@[simp] theorem State.setMem_sp : (s.setMem v).sp = s.sp := rfl
@[simp] theorem State.setMem_pc : (s.setMem v).pc = s.pc := rfl
@[simp] theorem State.setMem_mem : (s.setMem v).mem = v := rfl
@[simp] theorem State.setMem_runState : (s.setMem v).runState = s.runState := rfl
@[simp] theorem State.setMem_fault : (s.setMem v).fault = s.fault := rfl
@[simp] theorem State.setMem_src : (s.setMem v).src = s.src := rfl
@[simp] theorem State.setMem_pastTop : (s.setMem v).pastTop = s.pastTop := rfl
end setMem

section setRunState
variable (v : RunState) (s : State)
@[simp] theorem State.setRunState_a : (s.setRunState v).a = s.a := rfl
@[simp] theorem State.setRunState_x : (s.setRunState v).x = s.x := rfl
@[simp] theorem State.setRunState_y : (s.setRunState v).y = s.y := rfl
@[simp] theorem State.setRunState_p : (s.setRunState v).p = s.p := rfl
@[simp] theorem State.setRunState_sp : (s.setRunState v).sp = s.sp := rfl
@[simp] theorem State.setRunState_pc : (s.setRunState v).pc = s.pc := rfl
@[simp] theorem State.setRunState_mem : (s.setRunState v).mem = s.mem := rfl
@[simp] theorem State.setRunState_runState : (s.setRunState v).runState = v := rfl
@[simp] theorem State.setRunState_fault : (s.setRunState v).fault = s.fault := rfl
@[simp] theorem State.setRunState_src : (s.setRunState v).src = s.src := rfl
@[simp] theorem State.setRunState_pastTop : (s.setRunState v).pastTop = s.pastTop := rfl
end setRunState

section setFault
variable (v : Option FaultRecord) (s : State)
@[simp] theorem State.setFault_a : (s.setFault v).a = s.a := rfl
@[simp] theorem State.setFault_x : (s.setFault v).x = s.x := rfl
@[simp] theorem State.setFault_y : (s.setFault v).y = s.y := rfl
@[simp] theorem State.setFault_p : (s.setFault v).p = s.p := rfl
@[simp] theorem State.setFault_sp : (s.setFault v).sp = s.sp := rfl
@[simp] theorem State.setFault_pc : (s.setFault v).pc = s.pc := rfl
@[simp] theorem State.setFault_mem : (s.setFault v).mem = s.mem := rfl
@[simp] theorem State.setFault_runState : (s.setFault v).runState = s.runState := rfl
@[simp] theorem State.setFault_fault : (s.setFault v).fault = v := rfl
@[simp] theorem State.setFault_src : (s.setFault v).src = s.src := rfl
@[simp] theorem State.setFault_pastTop : (s.setFault v).pastTop = s.pastTop := rfl
end setFault

section setSrc
variable (v : StreamSource) (s : State)
@[simp] theorem State.setSrc_a : (s.setSrc v).a = s.a := rfl
@[simp] theorem State.setSrc_x : (s.setSrc v).x = s.x := rfl
@[simp] theorem State.setSrc_y : (s.setSrc v).y = s.y := rfl
@[simp] theorem State.setSrc_p : (s.setSrc v).p = s.p := rfl
@[simp] theorem State.setSrc_sp : (s.setSrc v).sp = s.sp := rfl
@[simp] theorem State.setSrc_pc : (s.setSrc v).pc = s.pc := rfl
@[simp] theorem State.setSrc_mem : (s.setSrc v).mem = s.mem := rfl
@[simp] theorem State.setSrc_runState : (s.setSrc v).runState = s.runState := rfl
@[simp] theorem State.setSrc_fault : (s.setSrc v).fault = s.fault := rfl
@[simp] theorem State.setSrc_src : (s.setSrc v).src = v := rfl
@[simp] theorem State.setSrc_pastTop : (s.setSrc v).pastTop = s.pastTop := rfl
end setSrc

section setPastTop
variable (v : Bool) (s : State)
@[simp] theorem State.setPastTop_a : (s.setPastTop v).a = s.a := rfl
@[simp] theorem State.setPastTop_x : (s.setPastTop v).x = s.x := rfl
@[simp] theorem State.setPastTop_y : (s.setPastTop v).y = s.y := rfl
@[simp] theorem State.setPastTop_p : (s.setPastTop v).p = s.p := rfl
@[simp] theorem State.setPastTop_sp : (s.setPastTop v).sp = s.sp := rfl
@[simp] theorem State.setPastTop_pc : (s.setPastTop v).pc = s.pc := rfl
@[simp] theorem State.setPastTop_mem : (s.setPastTop v).mem = s.mem := rfl
@[simp] theorem State.setPastTop_runState : (s.setPastTop v).runState = s.runState := rfl
@[simp] theorem State.setPastTop_fault : (s.setPastTop v).fault = s.fault := rfl
@[simp] theorem State.setPastTop_src : (s.setPastTop v).src = s.src := rfl
@[simp] theorem State.setPastTop_pastTop : (s.setPastTop v).pastTop = v := rfl
end setPastTop

section advancePC
variable (n : Nat) (s : State)
@[simp] theorem State.advancePC_a : (s.advancePC n).a = s.a := rfl
@[simp] theorem State.advancePC_x : (s.advancePC n).x = s.x := rfl
@[simp] theorem State.advancePC_y : (s.advancePC n).y = s.y := rfl
@[simp] theorem State.advancePC_p : (s.advancePC n).p = s.p := rfl
@[simp] theorem State.advancePC_sp : (s.advancePC n).sp = s.sp := rfl
@[simp] theorem State.advancePC_pc : (s.advancePC n).pc = s.pc + BitVec.ofNat 16 n := rfl
@[simp] theorem State.advancePC_mem : (s.advancePC n).mem = s.mem := rfl
@[simp] theorem State.advancePC_runState : (s.advancePC n).runState = s.runState := rfl
@[simp] theorem State.advancePC_fault : (s.advancePC n).fault = s.fault := rfl
@[simp] theorem State.advancePC_src : (s.advancePC n).src = s.src := rfl
@[simp] theorem State.advancePC_pastTop : (s.advancePC n).pastTop = s.pastTopAfter n := rfl
end advancePC

section takeFault
variable (r : FaultRecord) (s : State)
@[simp] theorem State.takeFault_a : (s.takeFault r).a = s.a := rfl
@[simp] theorem State.takeFault_x : (s.takeFault r).x = s.x := rfl
@[simp] theorem State.takeFault_y : (s.takeFault r).y = s.y := rfl
@[simp] theorem State.takeFault_p : (s.takeFault r).p = s.p := rfl
@[simp] theorem State.takeFault_sp : (s.takeFault r).sp = s.sp := rfl
@[simp] theorem State.takeFault_pc : (s.takeFault r).pc = s.pc := rfl
@[simp] theorem State.takeFault_mem : (s.takeFault r).mem = s.mem := rfl
@[simp] theorem State.takeFault_runState : (s.takeFault r).runState = .faulted := rfl
@[simp] theorem State.takeFault_fault : (s.takeFault r).fault = some r := rfl
@[simp] theorem State.takeFault_src : (s.takeFault r).src = s.src := rfl
@[simp] theorem State.takeFault_pastTop : (s.takeFault r).pastTop = s.pastTop := rfl
end takeFault

section doReset
variable (s : State)
@[simp] theorem State.doReset_a : s.doReset.a = 0x00#8 := rfl
@[simp] theorem State.doReset_x : s.doReset.x = 0x00#8 := rfl
@[simp] theorem State.doReset_y : s.doReset.y = s.y := rfl
@[simp] theorem State.doReset_p : s.doReset.p = 0x00#8 := rfl
@[simp] theorem State.doReset_sp : s.doReset.sp = s.sp := rfl
@[simp] theorem State.doReset_pc : s.doReset.pc = s.mem.read16 resetVector := rfl
@[simp] theorem State.doReset_mem : s.doReset.mem = s.mem := rfl
@[simp] theorem State.doReset_runState : s.doReset.runState = .idle := rfl
@[simp] theorem State.doReset_fault : s.doReset.fault = none := rfl
@[simp] theorem State.doReset_src : s.doReset.src = s.src := rfl
@[simp] theorem State.doReset_pastTop : s.doReset.pastTop = s.pastTop := rfl
end doReset

end Sys2Proof.Machine
end

