-- ==== Sys2Proof/Laws/Ops.lean ====
section
/-! SUPPORT. One lemma per shared operation: the instruction stream, the flag unit, the resolver's operand reads. -/

namespace Sys2Proof.Machine

/-! ## The instruction stream (R69) -/

theorem State.iRead_mem {s : State} (h : s.src = .mem) (pos : Addr) : s.iRead pos = .ok (s.mem.read pos) := by
  simp [State.iRead, h]

/-- Under `interpret` a read answers the byte at its index, if the sequence has one there among its first 65536, or the
fault (R69, R70). No proof stands in the term, so an index can be rewritten in it. -/
theorem State.iRead_rom {s : State} {bytes : List Byte} (h : s.src = .rom bytes) (pos : Addr) :
    s.iRead pos =
      if s.streamIndex pos < 2 ^ 16 ∧ s.streamIndex pos < bytes.length then .ok (bytes.getD (s.streamIndex pos) 0x00#8)
      else .raise (.fetchOutOfRange (s.streamIndex pos)) := by
  simp only [State.iRead, h]
  generalize s.streamIndex pos = n
  by_cases h1 : n < 2 ^ 16
  · by_cases h2 : n < bytes.length
    · rw [if_pos h1, if_pos ⟨h1, h2⟩, List.getElem?_eq_getElem h2, List.getD_eq_getElem _ _ h2]
    · rw [if_pos h1, if_neg (fun h' => h2 h'.2), List.getElem?_eq_none (Nat.le_of_not_lt h2)]
  · rw [if_neg h1, if_neg (fun h' => h1 h'.1)]

/-- A position behind `pc`, counted from it: its index is not reduced modulo 65536. -/
theorem State.streamIndex_add (s : State) {k : Nat} (hk : k < 2 ^ 16) :
    s.streamIndex (s.pc + BitVec.ofNat 16 k) = s.pcIndex + k := by
  have : s.pc + BitVec.ofNat 16 k - s.pc = BitVec.ofNat 16 k := by bv_omega
  rw [State.streamIndex, this, BitVec.toNat_ofNat, Nat.mod_eq_of_lt hk]

@[simp] theorem State.streamIndex_pc (s : State) : s.streamIndex s.pc = s.pcIndex := by
  simp [State.streamIndex]

/-- `pc` and the noted passing of `0xFFFF` make one unreduced position, which an advance moves by its `n` bytes as long as
the position was one of the sequence's. -/
theorem State.pcIndex_advancePC {s : State} {rom : List Byte} (h : s.src = .rom rom) {n : Nat} (hn : n < 2 ^ 16)
    (hpc : s.pcIndex < 2 ^ 16) : (s.advancePC n).pcIndex = s.pcIndex + n := by
  have hlt := s.pc.isLt
  cases hp : s.pastTop with
  | true => simp [State.pcIndex, hp] at hpc
  | false =>
    simp only [State.pcIndex, State.advancePC_pastTop, State.pastTopAfter, h, hp, Bool.false_or, decide_eq_true_eq,
      State.advancePC_pc, BitVec.toNat_add, BitVec.toNat_ofNat, Nat.mod_eq_of_lt hn, Bool.false_eq_true, if_false]
    split <;> omega

/-- The note after two advances is the note after one. -/
theorem State.pastTopAfter_add {s : State} {n k : Nat} (hn : n < 2 ^ 16) (hk : n + k < 2 ^ 16) :
    (s.advancePC n).pastTopAfter k = s.pastTopAfter (n + k) := by
  have hlt := s.pc.isLt
  unfold State.pastTopAfter
  simp only [State.advancePC_src]
  cases hs : s.src with
  | mem => simp [State.pastTopAfter, hs]
  | rom rom =>
    simp only [State.advancePC_pastTop, State.pastTopAfter, hs, State.advancePC_pc, BitVec.toNat_add,
      BitVec.toNat_ofNat, Nat.mod_eq_of_lt hn, Bool.or_assoc]
    congr 1
    rw [← Bool.decide_or, decide_eq_decide]
    omega

/-- Two advances are one. -/
theorem State.advancePC_add (s : State) {n k : Nat} (hn : n < 2 ^ 16) (hk : n + k < 2 ^ 16) :
    (s.advancePC n).advancePC k = s.advancePC (n + k) := by
  have hpc : s.pc + BitVec.ofNat 16 n + BitVec.ofNat 16 k = s.pc + BitVec.ofNat 16 (n + k) := by
    rw [BitVec.add_assoc, ← BitVec.ofNat_add]
  rw [State.advancePC, State.pastTopAfter_add hn hk, State.advancePC_pc, hpc]
  rfl

/-- Whatever the stream, a read that raises raises `FetchOutOfRange` at its own position (R194). -/
theorem State.iRead_raise {s : State} {pos : Addr} {r : FaultRecord} (h : s.iRead pos = .raise r) :
    r = .fetchOutOfRange (s.streamIndex pos) := by
  cases hs : s.src with
  | mem => simp [State.iRead_mem hs] at h
  | rom bytes =>
    rw [State.iRead_rom hs] at h
    split at h
    · cases h
    · exact (Checked.raise.inj h).symm

/-- Only the source, memory, `pc` and the noted passing decide what the stream reads as. -/
theorem State.iRead_congr {s t : State} (hsrc : t.src = s.src) (hmem : t.mem = s.mem) (hpc : t.pc = s.pc)
    (hpast : t.pastTop = s.pastTop) (pos : Addr) : t.iRead pos = s.iRead pos := by
  unfold State.iRead State.streamIndex State.pcIndex
  rw [hsrc, hmem, hpc, hpast]

/-- Advancing `pc` past positions that could be read leaves what is read behind them. -/
theorem State.iRead_advancePC {s : State} {b : Byte} (h : s.iRead s.pc = .ok b) {n k : Nat} (hn : n < 2 ^ 16)
    (hk : n + k < 2 ^ 16) :
    (s.advancePC n).iRead (s.pc + BitVec.ofNat 16 (n + k)) = s.iRead (s.pc + BitVec.ofNat 16 (n + k)) := by
  cases hs : s.src with
  | mem => rw [State.iRead_mem hs, State.iRead_mem (s := s.advancePC n) hs]; rfl
  | rom rom =>
    have hpc : s.pcIndex < 2 ^ 16 := by
      rw [State.iRead_rom hs] at h
      split at h
      · next hlt => simpa using hlt.1
      · cases h
    have hpos : s.pc + BitVec.ofNat 16 (n + k) = (s.advancePC n).pc + BitVec.ofNat 16 k := by
      rw [State.advancePC_pc]
      bv_omega
    have hidx : (s.advancePC n).streamIndex (s.pc + BitVec.ofNat 16 (n + k)) =
        s.streamIndex (s.pc + BitVec.ofNat 16 (n + k)) := by
      rw [State.streamIndex_add s hk, hpos, State.streamIndex_add _ (by omega), State.pcIndex_advancePC hs hn hpc]
      omega
    simp only [State.iRead, State.advancePC_src, hs, hidx]

theorem State.streamBytes_zero (s : State) (pos : Addr) : s.streamBytes pos 0 = [] := rfl

theorem State.streamBytes_ok {s : State} {pos : Addr} {b : Byte} (h : s.iRead pos = .ok b) (n : Nat) :
    s.streamBytes pos (n + 1) = b :: s.streamBytes (pos + 1#16) n := by
  simp [State.streamBytes, h]

theorem State.streamBytes_raise {s : State} {pos : Addr} {r : FaultRecord} (h : s.iRead pos = .raise r) (n : Nat) :
    s.streamBytes pos (n + 1) = [] := by
  simp [State.streamBytes, h]

/-! ## Bits of a byte -/

/-- `setBit` writes its bit and keeps the others. -/
theorem setBit_getLsbD (p : Byte) {i : Nat} (hi : i < 8) (b : Bool) (j : Nat) :
    (setBit p i b).getLsbD j = if j = i then b else p.getLsbD j := by
  have key : ∀ (i : Fin 8) (j : Fin 8) (b : Bool) (p : Byte),
      (setBit p i.1 b).getLsbD j.1 = if j.1 = i.1 then b else p.getLsbD j.1 := by
    intro i j b p
    fin_cases i <;> fin_cases j <;> cases b <;> simp [setBit]
  by_cases hj : j < 8
  · exact key ⟨i, hi⟩ ⟨j, hj⟩ b p
  · have hne : j ≠ i := by omega
    rw [if_neg hne, BitVec.getLsbD_of_ge _ _ (by omega), BitVec.getLsbD_of_ge _ _ (by omega)]

/-! ## The flag unit (R130) -/

theorem State.setZN_eq (v : Byte) (s : State) : s.setZN v = s.setP (znFlags s.p v) := rfl

/-- The old Z and N do not influence the new flags (R130, last sentence but one). -/
theorem znFlags_absorb (p u v : Byte) : znFlags (znFlags p u) v = znFlags p v := by
  refine BitVec.eq_of_getLsbD_eq fun i _ => ?_
  simp only [znFlags, setBit_getLsbD _ (show nBit < 8 by decide), setBit_getLsbD _ (show zBit < 8 by decide)]
  split <;> [rfl; split <;> rfl]

/-! ## The resolver's operand reads (R110) -/

theorem State.withOperand8_ok {s : State} {d8 : Byte} (h : s.iRead s.pc = .ok d8) (f : Byte → Addr) :
    s.withOperand8 f = .ok (f d8) := by
  simp [State.withOperand8, h, Checked.andThen]

theorem State.withOperand16_ok {s : State} {lo hi : Byte} (hlo : s.iRead s.pc = .ok lo)
    (hhi : s.iRead (s.pc + 1#16) = .ok hi) (f : Byte → Byte → Addr) : s.withOperand16 f = .ok (f hi lo) := by
  simp [State.withOperand16, hlo, hhi, Checked.andThen]

/-- The resolver raises only what an operand read raised, or `InvalidAddressingMode` on NoneAddressing (R110). -/
theorem State.effectiveAddress_raise {s : State} {mode : AddrMode} {r : FaultRecord}
    (h : s.effectiveAddress mode = .raise r) :
    (mode = .noneAddressing ∧ r = .invalidAddressingMode) ∨ s.iRead s.pc = .raise r ∨
      s.iRead (s.pc + 1#16) = .raise r := by
  have h8 : ∀ f, s.withOperand8 f = .raise r → s.iRead s.pc = .raise r := by
    intro f hf
    unfold State.withOperand8 at hf
    cases hr : s.iRead s.pc with
    | ok v => simp [hr, Checked.andThen] at hf
    | raise q => simpa [hr, Checked.andThen] using hf
  have h16 : ∀ f, s.withOperand16 f = .raise r → s.iRead s.pc = .raise r ∨ s.iRead (s.pc + 1#16) = .raise r := by
    intro f hf
    unfold State.withOperand16 at hf
    cases hr : s.iRead s.pc with
    | raise q => left; simpa [hr, Checked.andThen] using hf
    | ok lo =>
      right
      cases hr' : s.iRead (s.pc + 1#16) with
      | ok v => simp [hr, hr', Checked.andThen] at hf
      | raise q => simpa [hr, hr', Checked.andThen] using hf
  cases mode with
  | immediate => simp [State.effectiveAddress] at h
  | noneAddressing => exact .inl ⟨rfl, (Checked.raise.inj h).symm⟩
  | zeroPage | zeroPageX | zeroPageY | indirectX | indirectY => exact .inr (.inl (h8 _ h))
  | absolute | absoluteX | absoluteY => exact .inr (h16 _ h)

end Sys2Proof.Machine
end

