-- ==== Sys2Proof/Laws/PerInstr.lean ====
section
/-! SUPPORT. Statements made per instruction, as syntax. -/

namespace Sys2Proof.Laws.EncodingShape

/-- The encoded bytes begin with the opcode the dispatch table knows, as many follow as it says, and the instruction is as
long as its mode makes it (30_encoding.md rules R80, R84, R89; 46_dispatch_loop.md rule R167). -/
def Statement (i : Instr) : Prop :=
  i.wellFormed = true ∧ (encode i).length = i.length ∧
    ∃ e, dispatchEntry i.opcode = some e ∧ e.wellFormed = true ∧ e.mode = i.mode ∧
      encode i = i.opcode :: i.operand ∧ i.operand.length = e.operandBytes

theorem brk : Statement .brk := ⟨rfl, rfl, _, rfl, rfl, rfl, rfl, rfl⟩
theorem ldaZp (zz : Byte) : Statement (.ldaZp zz) := ⟨rfl, rfl, _, rfl, rfl, rfl, rfl, rfl⟩
theorem ldaImm (imm : Byte) : Statement (.ldaImm imm) := ⟨rfl, rfl, _, rfl, rfl, rfl, rfl, rfl⟩
theorem tax : Statement .tax := ⟨rfl, rfl, _, rfl, rfl, rfl, rfl, rfl⟩
theorem ldaAbs (a16 : Addr) : Statement (.ldaAbs a16) := ⟨rfl, rfl, _, rfl, rfl, rfl, rfl, rfl⟩
theorem inx : Statement .inx := ⟨rfl, rfl, _, rfl, rfl, rfl, rfl, rfl⟩

end Sys2Proof.Laws.EncodingShape
end

