-- ==== Sys2Proof/Laws/Step.lean ====
section
/-! SUPPORT. What a step and a host action can do, said once. -/

namespace Sys2Proof.Machine

/-- If a step answers a next state, the machine was Running and the step ran the decoded instruction, or took
`UnimplementedOpcode`, or took `FetchOutOfRange`. -/
theorem step_cases {s t : State} (h : step s = .next t) :
    s.runState = .running ∧
      ((∃ i rest, s.fetch = .instr i rest ∧ exec i s = .next t) ∨
       (∃ op, s.fetch = .unimplemented op ∧
          t = (s.advancePC 1).takeFault (.unimplementedOpcode op s.pc)) ∨
       (∃ k, s.fetch = .truncated k ∧
          t = (if k = 0 then s else s.advancePC 1).takeFault (.fetchOutOfRange (s.pcIndex + k)))) := by
  unfold step at h
  split at h
  · next hr =>
    refine ⟨hr, ?_⟩
    split at h
    · next i rest hf => exact .inl ⟨i, rest, hf, h⟩
    · next op hf => exact .inr (.inl ⟨op, hf, by simpa [faultUnimplemented, eq_comm] using h⟩)
    · next k hf => exact .inr (.inr ⟨k, hf, by simpa [faultFetch, eq_comm] using h⟩)
  · cases h
  · cases h
  · cases h

theorem step_of_running {s : State} (h : s.runState = .running) :
    step s = match s.fetch with
      | .instr i _ => exec i s
      | .unimplemented op => faultUnimplemented op s
      | .truncated missing => faultFetch missing s := by
  cases s
  cases h
  rfl

/-- An accepted action of R232's rows `reset` and direct access. -/
theorem acceptedIfStopped_next {s t u : State} (h : acceptedIfStopped s t = .next u) :
    s.runState ≠ .running ∧ u = t := by
  unfold acceptedIfStopped at h
  cases hs : s.runState <;> simp [hs] at h <;> exact ⟨by simp, h.symm⟩

/-- An accepted action of R232's rows `load`, `run`, `load_and_run` and `interpret`. -/
theorem acceptedIfSound_next {s t u : State} (h : acceptedIfSound s t = .next u) :
    s.runState ≠ .running ∧ s.runState ≠ .faulted ∧ u = t := by
  unfold acceptedIfSound at h
  cases hs : s.runState <;> simp [hs] at h <;> exact ⟨by simp, by simp, h.symm⟩

/-- Every memory operation of the host port keeps the canonical form. -/
theorem loadedMemory_wf {m : Memory} (h : m.wf = true) (program : List Byte) : (loadedMemory program m).wf = true :=
  Memory.write16_wf (Memory.writeBytes_wf h _ _) _ _

/-- R232 from the accepting side. -/
theorem acceptedIfStopped_eq {s : State} (t : State) (h : s.runState ≠ .running) : acceptedIfStopped s t = .next t := by
  unfold acceptedIfStopped
  cases hs : s.runState <;> simp_all

theorem acceptedIfSound_eq {s : State} (t : State) (h : s.runState = .idle ∨ s.runState = .halted) :
    acceptedIfSound s t = .next t := by
  unfold acceptedIfSound
  rcases h with h | h <;> simp [h]

/-- The run loop takes no step outside Running (R165). -/
theorem runLoop_of_not_running {s : State} (h : s.runState ≠ .running) (fuel : Nat) : runLoop fuel s = s := by
  cases fuel with
  | zero => rfl
  | succ n => cases hs : s.runState <;> simp_all [runLoop, step]

theorem runLoop_succ {s t : State} (h : step s = .next t) (fuel : Nat) : runLoop (fuel + 1) s = runLoop fuel t := by
  simp [runLoop, h]

/-- `load` of a program that fits changes memory only (R223). -/
theorem doLoad_accepted {s : State} {program : List Byte} (h : program.length ≤ 0x8000) :
    s.doLoad program = s.setMem (loadedMemory program s.mem) :=
  if_neg (Nat.not_lt.2 h)

/-- `load` of a program that does not fit is the fault (R224). -/
theorem doLoad_tooLong {s : State} {program : List Byte} (h : 0x8000 < program.length) :
    s.doLoad program = s.takeFault (.outOfRangeLoad program.length) :=
  if_pos h

theorem doLoadAndRun_accepted {s : State} {program : List Byte} (h : program.length ≤ 0x8000) :
    s.doLoadAndRun program = (s.doLoad program).doReset.doRun :=
  if_neg (Nat.not_lt.2 h)

theorem doLoadAndRun_tooLong {s : State} {program : List Byte} (h : 0x8000 < program.length) :
    s.doLoadAndRun program = s.doLoad program :=
  if_pos h

theorem doWrite_wf {s : State} (h : s.mem.wf = true) (w : HostWrite) : (s.doWrite w).mem.wf = true := by
  cases w with
  | mem8 addr v => exact Memory.write_wf h addr v
  | mem16 addr v => exact Memory.write16_wf h addr v
  | a v | x v | y v | p v | sp v | pc v => exact h

theorem reset_mem_wf : State.reset.mem.wf = true := Memory.nil_wf

/-- Placing bytes at the fetch position keeps the canonical form. -/
theorem withFetchWord_wf {s : State} (h : s.mem.wf = true) (nbits w : Nat) : (s.withFetchWord nbits w).mem.wf = true :=
  Memory.writeBytes_wf h _ _

end Sys2Proof.Machine
end

