-- ==== Sys2Proof/Tests/Slice0.lean ====
section
/-! SUPPORT. The model's own tests. Expected values are the spec's: encodings from 30_encoding.md, vectors by their number in
95_test_vectors.md. At the end one witness for each statement that has hypotheses, the hypotheses met all together. -/

namespace Sys2Proof.Tests

open Sys2Proof.Machine Sys2Proof.Claims

/-- A state in the order of 95_test_vectors.md (`A X Y P SP pc`), Running, stream `Mem`. -/
def st (a x y p sp : Byte) (pc : Addr) (mem : Memory) : State :=
  { a := a, x := x, y := y, p := p, sp := sp, pc := pc, mem := mem, runState := .running, fault := none, src := .mem,
    pastTop := false }

/-- The same under `interpret(rom)`. -/
def stRom (a x y p sp : Byte) (pc : Addr) (mem : Memory) (rom : List Byte) : State :=
  { st a x y p sp pc mem with src := .rom rom }

def nextIs (o : Host.Outcome State Fault Refusal) (t : State) : Bool :=
  match o with
  | .next u => decide (u = t)
  | .fault _ => false
  | .refused _ => false

theorem next_of_nextIs {o : Host.Outcome State Fault Refusal} {t : State} (h : nextIs o t = true) : o = .next t := by
  cases o with
  | next u => exact congrArg _ (of_decide_eq_true h)
  | fault r => cases h
  | refused r => cases h

/-! ## Encoding (R81 to R86), each word bit by bit -/

theorem test_decode_brk_bits : decode [0b00000000#8] = .instr .brk [] := by decide
theorem test_decode_lda_zp_bits : decode [0b10100101#8, 0b00010000#8] = .instr (.ldaZp 0x10#8) [] := by decide
theorem test_decode_lda_imm_bits : decode [0b10101001#8, 0b11000000#8] = .instr (.ldaImm 0xC0#8) [] := by decide
theorem test_decode_tax_bits : decode [0b10101010#8] = .instr .tax [] := by decide
theorem test_decode_lda_abs_bits :
    decode [0b10101101#8, 0b00110100#8, 0b00010010#8] = .instr (.ldaAbs 0x1234#16) [] := by decide
theorem test_decode_inx_bits : decode [0b11101000#8] = .instr .inx [] := by decide
/-- N13: the immediate byte is not the next opcode. -/
theorem test_decode_leaves_the_rest :
    decode [0xA9#8, 0x05#8, 0x00#8] = .instr (.ldaImm 0x05#8) [0x00#8] := by decide
/-- H7's neighbours, H5 and H6. -/
theorem test_decode_refuses_neighbours :
    ∀ op ∈ [0x01#8, 0xA4#8, 0xA6#8, 0xA8#8, 0xAB#8, 0xAC#8, 0xAE#8, 0xE7#8, 0xE9#8, 0xA2#8, 0xEA#8, 0x02#8, 0xFF#8],
      decode [op] = .unimplemented op := by decide
theorem test_decode_truncated_absolute : decode [0xAD#8, 0x34#8] = .truncated 2 := by decide
theorem test_table_word_absolute : decodeTableWord 24 0x1234AD = some (.ldaAbs 0x1234#16) := by decide
theorem test_table_word_short : decodeTableWord 8 0xFFFFA5 = some (.ldaZp 0x00#8) := by decide
theorem test_table_word_illegal : decodeTableWord 8 0xEA = none := by decide

/-! ## Well-formedness: one ill-formed row of the dispatch table for each check, and the table itself -/

theorem test_wf_refuses_a_wrong_byte_count :
    (⟨.immediate, 0, .lda⟩ : DispatchEntry).wellFormed = false := by decide
theorem test_wf_refuses_a_load_without_address :
    (⟨.noneAddressing, 0, .lda⟩ : DispatchEntry).wellFormed = false := by decide
theorem test_wf_refuses_an_addressed_transfer :
    (⟨.absolute, 2, .tax⟩ : DispatchEntry).wellFormed = false := by decide
theorem test_wf_dispatch_table : ∀ r ∈ dispatchTable, r.2.wellFormed = true := by decide

/-! ## Single steps -/

/-- L6 -/
theorem test_lda_imm_keeps_reserved_flags :
    nextIs (step (st 0x00 0x11 0x22 0x7F 0x33 0x8000 [(0x8000, 0xA9), (0x8001, 0x80)]))
      (st 0x80 0x11 0x22 0xFD 0x33 0x8002 [(0x8000, 0xA9), (0x8001, 0x80)]) = true := by decide
/-- L8 -/
theorem test_lda_imm_wraps :
    nextIs (step (st 0x00 0x00 0x00 0x00 0x00 0xFFFF [(0x0000, 0x42), (0xFFFF, 0xA9)]))
      (st 0x42 0x00 0x00 0x00 0x00 0x0001 [(0x0000, 0x42), (0xFFFF, 0xA9)]) = true := by decide
/-- L11 -/
theorem test_lda_zp_stays_in_the_zero_page :
    nextIs (step (st 0x00 0x00 0x00 0x00 0x00 0x8000 [(0x00FF, 0x7F), (0x01FF, 0xEE), (0x8000, 0xA5), (0x8001, 0xFF)]))
      (st 0x7F 0x00 0x00 0x00 0x00 0x8002 [(0x00FF, 0x7F), (0x01FF, 0xEE), (0x8000, 0xA5), (0x8001, 0xFF)]) = true := by
  decide
/-- L10 -/
theorem test_lda_zp_reads_an_unwritten_cell_as_zero :
    nextIs (step (st 0x33 0x00 0x00 0x00 0x00 0x8000 [(0x8000, 0xA5), (0x8001, 0x20)]))
      (st 0x00 0x00 0x00 0x02 0x00 0x8002 [(0x8000, 0xA5), (0x8001, 0x20)]) = true := by decide
/-- L18 -/
theorem test_lda_abs_low_byte_first :
    nextIs (step (st 0x00 0x00 0x00 0x00 0x00 0x8000
        [(0x1234, 0x02), (0x3412, 0x01), (0x8000, 0xAD), (0x8001, 0x12), (0x8002, 0x34)]))
      (st 0x01 0x00 0x00 0x00 0x00 0x8003
        [(0x1234, 0x02), (0x3412, 0x01), (0x8000, 0xAD), (0x8001, 0x12), (0x8002, 0x34)]) = true := by decide
/-- L20 -/
theorem test_lda_abs_wraps :
    nextIs (step (st 0x00 0x00 0x00 0x00 0x00 0xFFFF [(0x0001, 0x03), (0x0300, 0x99), (0xFFFF, 0xAD)]))
      (st 0x99 0x00 0x00 0x80 0x00 0x0002 [(0x0001, 0x03), (0x0300, 0x99), (0xFFFF, 0xAD)]) = true := by decide
/-- X15 -/
theorem test_tax_copies :
    nextIs (step (st 0x7F 0x00 0x09 0x7D 0x44 0x8000 [(0x8000, 0xAA)]))
      (st 0x7F 0x7F 0x09 0x7D 0x44 0x8001 [(0x8000, 0xAA)]) = true := by decide
/-- X16 -/
theorem test_tax_flags :
    nextIs (step (st 0xFF 0x00 0x00 0x7F 0x00 0x8000 [(0x8000, 0xAA)]))
      (st 0xFF 0xFF 0x00 0xFD 0x00 0x8001 [(0x8000, 0xAA)]) = true := by decide
/-- I8 -/
theorem test_inx_wraps :
    nextIs (step (st 0x00 0xFF 0x00 0xFD 0x00 0x8000 [(0x8000, 0xE8)]))
      (st 0x00 0x00 0x00 0x7F 0x00 0x8001 [(0x8000, 0xE8)]) = true := by decide
/-- I4 -/
theorem test_inx_sets_negative :
    nextIs (step (st 0x00 0x7F 0x00 0x00 0x00 0x8000 [(0x8000, 0xE8)]))
      (st 0x00 0x80 0x00 0x80 0x00 0x8001 [(0x8000, 0xE8)]) = true := by decide
/-- H1 -/
theorem test_brk_halts :
    nextIs (step (st 0x12 0x34 0x56 0xFF 0x78 0x8002 []))
      { st 0x12 0x34 0x56 0xFF 0x78 0x8003 [] with runState := .halted } = true := by decide
/-- H2 -/
theorem test_brk_wraps :
    nextIs (step (st 0x00 0x00 0x00 0x00 0x00 0xFFFF []))
      { st 0x00 0x00 0x00 0x00 0x00 0x0000 [] with runState := .halted } = true := by decide
/-- H3 -/
theorem test_illegal_opcode :
    nextIs (step (st 0x12 0x34 0x56 0x82 0x78 0x8000 [(0x8000, 0x02)]))
      { st 0x12 0x34 0x56 0x82 0x78 0x8001 [(0x8000, 0x02)] with
        runState := .faulted, fault := some (.unimplementedOpcode 0x02 0x8000) } = true := by decide
/-- P5a -/
theorem test_interpret_empty :
    nextIs (step (stRom 0x00 0x00 0x00 0x00 0x00 0x0000 [] []))
      { stRom 0x00 0x00 0x00 0x00 0x00 0x0000 [] [] with
        runState := .faulted, fault := some (.fetchOutOfRange 0x0000) } = true := by decide
/-- R70: under `interpret` the operand of an instruction at `0xFFFF` is not the sequence's first byte. -/
theorem test_interpret_operand_does_not_wrap :
    (stRom 0x00 0x00 0x00 0x00 0x00 0xFFFF [] [0x42]).iRead 0x0000 = .raise (.fetchOutOfRange 0x10000) := by decide
/-- R70: nor is the opcode that follows it, once `pc` has passed `0xFFFF`. -/
theorem test_interpret_opcode_does_not_wrap :
    nextIs (step { stRom 0x00 0x00 0x00 0x00 0x00 0x0000 [] [0xE8] with pastTop := true })
      { stRom 0x00 0x00 0x00 0x00 0x00 0x0000 [] [0xE8] with
        pastTop := true, runState := .faulted, fault := some (.fetchOutOfRange 0x10000) } = true := by decide
/-- P5d -/
theorem test_interpret_missing_high_byte :
    nextIs (step (stRom 0x00 0x00 0x00 0x00 0x00 0x0000 [] [0xAD, 0x34]))
      { stRom 0x00 0x00 0x00 0x00 0x00 0x0001 [] [0xAD, 0x34] with
        runState := .faulted, fault := some (.fetchOutOfRange 0x0002) } = true := by decide
/-- P4, its first step: the data comes from memory, not from the sequence. -/
theorem test_interpret_loads_from_memory :
    nextIs (step (stRom 0x11 0x00 0x33 0x7D 0x44 0x0000 [(0x0010, 0x80)] [0xA5, 0x10, 0xAA, 0x00]))
      (stRom 0x80 0x00 0x33 0xFD 0x44 0x0002 [(0x0010, 0x80)] [0xA5, 0x10, 0xAA, 0x00]) = true := by decide
/-- The first instruction after reset, as the host places it: `LDA #$05` (S1's first step, at power-on's `pc`). -/
theorem test_first_step_after_reset :
    nextIs (step (State.reset.withFetchWord 16 0x05A9))
      (st 0x05 0x00 0x00 0x00 0x00 0x0002 [(0x0000, 0xA9), (0x0001, 0x05)]) = true := by decide
/-- The spec's own loop on L19: the operand crosses the top of memory. -/
theorem test_loop_step_wraps :
    loopStep (st 0x00 0x00 0x00 0x00 0x00 0xFFFE [(0x0010, 0x42), (0xFFFE, 0xAD), (0xFFFF, 0x10)]) =
      st 0x42 0x00 0x00 0x00 0x00 0x0001 [(0x0010, 0x42), (0xFFFE, 0xAD), (0xFFFF, 0x10)] := by decide

/-! ## The resolver, `pc` at the first operand byte -/

/-- A6 -/
theorem test_ea_zero_page_x : (st 0x00 0x02 0x00 0x00 0x00 0x8001 [(0x8001, 0xFF)]).effectiveAddress .zeroPageX = .ok 0x0001 := by
  decide
/-- A10 -/
theorem test_ea_zero_page_y : (st 0x00 0x05 0x00 0x00 0x00 0x8001 [(0x8001, 0x10)]).effectiveAddress .zeroPageY = .ok 0x0010 := by
  decide
/-- A12 -/
theorem test_ea_absolute_wraps :
    (st 0x00 0x00 0x00 0x00 0x00 0xFFFF [(0x0000, 0x12), (0xFFFF, 0x34)]).effectiveAddress .absolute = .ok 0x1234 := by decide
/-- A14 -/
theorem test_ea_absolute_x :
    (st 0x00 0x01 0x00 0x00 0x00 0x8001 [(0x8001, 0xFF), (0x8002, 0x12)]).effectiveAddress .absoluteX = .ok 0x1300 := by decide
/-- A16 -/
theorem test_ea_absolute_y :
    (st 0x00 0x00 0xFF 0x00 0x00 0x8001 [(0x8001, 0x80), (0x8002, 0xFF)]).effectiveAddress .absoluteY = .ok 0x007F := by decide
/-- A19 -/
theorem test_ea_indirect_x :
    (st 0x00 0x01 0x00 0x00 0x00 0x8001 [(0x0000, 0x12), (0x00FF, 0x34), (0x0100, 0x99), (0x8001, 0xFE)]).effectiveAddress
      .indirectX = .ok 0x1234 := by decide
/-- A23 -/
theorem test_ea_indirect_y :
    (st 0x00 0x00 0x01 0x00 0x00 0x8001 [(0x0000, 0x12), (0x00FF, 0x34), (0x0100, 0x99), (0x8001, 0xFF)]).effectiveAddress
      .indirectY = .ok 0x1235 := by decide
/-- A24 -/
theorem test_ea_indirect_y_wraps :
    (st 0x00 0x00 0x02 0x00 0x00 0x8001 [(0x0040, 0xFF), (0x0041, 0xFF), (0x8001, 0x40)]).effectiveAddress .indirectY =
      .ok 0x0001 := by decide
/-- A26 -/
theorem test_ea_none : State.reset.effectiveAddress .noneAddressing = .raise .invalidAddressingMode := by decide

/-! ## Memory, flags, host -/

/-- M5 -/
theorem test_write16_wraps : Memory.write16 [] 0xFFFF 0x1234 = [(0x0000, 0x12), (0xFFFF, 0x34)] := by decide
/-- M8 -/
theorem test_zero_page_pointer :
    Memory.readZP16 [(0x0000, 0x12), (0x00FF, 0x34), (0x0100, 0x99)] 0xFF = 0x1234 ∧
      Memory.read16 [(0x0000, 0x12), (0x00FF, 0x34), (0x0100, 0x99)] 0x00FF = 0x9934 := by decide
/-- Writing what an unlisted cell reads as removes the cell. -/
theorem test_write_zero_is_canonical : Memory.write [(0x0010, 0x55), (0x0020, 0x66)] 0x0010 0x00 = [(0x0020, 0x66)] := by
  decide
/-- F9, F11, F13 -/
theorem test_flag_unit : znFlags 0xFF 0x00 = 0x7F ∧ znFlags 0xFF 0x80 = 0xFD ∧ znFlags 0x7D 0x90 = 0xFD := by decide

/-- B5's state -/
def b5 : State :=
  { st 0xAA 0xBB 0xCC 0xFF 0xDD 0x1234 [(0xFFFD, 0x80)] with runState := .halted }

/-- B5 -/
theorem test_host_reset :
    nextIs (hostAct .reset b5) { st 0x00 0x00 0xCC 0x00 0xDD 0x8000 [(0xFFFD, 0x80)] with runState := .idle } = true := by
  decide
/-- B11, from B3's kind of state -/
theorem test_load_keeps_the_tail :
    nextIs (hostAct (.load [0xE8])
        { State.reset with mem := [(0x8000, 0xA9), (0x8001, 0xC0), (0x8002, 0xAA), (0x8003, 0xE8), (0xFFFD, 0x80)] })
      { State.reset with mem := [(0x8000, 0xE8), (0x8001, 0xC0), (0x8002, 0xAA), (0x8003, 0xE8), (0xFFFD, 0x80)] } =
      true := by decide
/-- P7's entry -/
theorem test_load_and_run_entry :
    nextIs (hostAct (.loadAndRun [0xE8, 0x00])
        { State.reset with a := 0x01, x := 0x02, y := 0x77, p := 0xFF, sp := 0xFD })
      (st 0x00 0x00 0x77 0x00 0xFD 0x8000 [(0x8000, 0xE8), (0xFFFD, 0x80)]) = true := by decide
/-- S4i's entry: nothing but `pc` is initialised -/
theorem test_interpret_entry :
    nextIs (hostAct (.interpret [0xE8, 0xE8, 0x00]) { b5 with x := 0xFF })
      (stRom 0xAA 0xFF 0xCC 0xFF 0xDD 0x0000 [(0xFFFD, 0x80)] [0xE8, 0xE8, 0x00]) = true := by decide
/-- B12: refused in Faulted. -/
theorem test_run_refused_in_faulted :
    hostAct .run { b5 with runState := .faulted } = .refused .hostWhileFaulted := by rfl

/-! ## Witnesses: for each statement with hypotheses, a state and operands that meet them, clause by clause -/

/-- `LDA #$80` at `0xFFFF`, the operand at `0x0000`, Running. -/
def w1 : State := st 0x01 0x02 0x03 0x7F 0x05 0xFFFF [(0x0000, 0x80), (0xFFFF, 0xA9)]
/-- A halted state that meets the invariant. -/
def w2 : State := { w1 with runState := .halted }
/-- One opcode byte of a sequence that ends behind it. -/
def romEnd (op : Byte) : State := stRom 0x01 0x02 0x03 0x7F 0x05 0x0000 [(0x0010, 0x80)] [op]

theorem witness_DecodeOfEncodeIsTheInstruction : (Instr.ldaAbs 0xFFFF).wellFormed = true := by decide
theorem witness_EncodeOfDecodeIsTheBytes : decode [0xAD, 0xFF, 0x00, 0x01] = .instr (.ldaAbs 0x00FF) [0x01] := by decide
theorem witness_ByteWriteReadsBackAndChangesNothingElse : Inv w2 ∧ w2.runState ≠ .running := by decide
theorem witness_WordWriteIsLittleEndianAndReadsBack : Memory.wf [(0x0000, 0x01), (0xFFFF, 0x02)] = true := by decide
theorem witness_ZeroPagePointerReadStaysInTheZeroPage : (0x00 : Byte) ≠ 0xFF ∧ (0xFF : Byte) = 0xFF := by decide
theorem witness_StreamReadsMemoryOrTheSequence :
    w1.src = .mem ∧
      ((romEnd 0xA9).src = .rom [0xA9] ∧ (romEnd 0xA9).pastTop = false ∧
        (romEnd 0xA9).pc.toNat ≤ (0x0000 : Addr).toNat ∧ ([0xA9] : List Byte)[(0x0000 : Addr).toNat]? = some 0xA9) ∧
      ((romEnd 0xA9).pc.toNat ≤ (0x0001 : Addr).toNat ∧ ([0xA9] : List Byte).length ≤ (0x0001 : Addr).toNat) ∧
      ((stRom 0 0 0 0 0 0xFFFF [] [0x42]).src = .rom [0x42] ∧
        (0x0000 : Addr).toNat < (stRom 0 0 0 0 0 0xFFFF [] [0x42]).pc.toNat) := by decide
theorem witness_OneByteModesComputeTheirAddress : w1.iRead w1.pc = .ok 0xA9 := by decide
theorem witness_TwoByteModesComputeTheirAddress :
    w1.iRead w1.pc = .ok 0xA9 ∧ w1.iRead (w1.pc + 1#16) = .ok 0x80 ∧ w1.src = .mem := by decide
theorem witness_ZeroPageYWrapsAndNoneAddressingIsAFault :
    w1.iRead w1.pc = .ok 0xA9 ∧ w1.src = .mem ∧ AddrMode.zeroPageY ≠ .noneAddressing := by decide
/-- Under `interpret`, a sequence that ends behind its opcode byte: clauses 4 and 5. -/
theorem witness_LdaImmediateLoadsItsOperandByte :
    (w1.runState = .running ∧ w1.iRead w1.pc = .ok 0xA9 ∧ w1.iRead (w1.pc + 1#16) = .ok 0x80) ∧
      ((romEnd 0xA9).runState = .running ∧ (romEnd 0xA9).iRead (romEnd 0xA9).pc = .ok 0xA9 ∧
        (romEnd 0xA9).iRead ((romEnd 0xA9).pc + 1#16) = .raise (.fetchOutOfRange 1)) ∧
      ((romEnd 0xA9).src = .rom [0xA9] ∧ min ([0xA9] : List Byte).length 65536 ≤ (romEnd 0xA9).pc.toNat + 1) := by decide
theorem witness_LdaZeroPageLoadsFromTheZeroPage :
    ((st 0 0 0 0 0 0xFFFF [(0, 0xFF), (0xFFFF, 0xA5)]).runState = .running ∧
      (st 0 0 0 0 0 0xFFFF [(0, 0xFF), (0xFFFF, 0xA5)]).iRead 0xFFFF = .ok 0xA5 ∧
      (st 0 0 0 0 0 0xFFFF [(0, 0xFF), (0xFFFF, 0xA5)]).iRead (0xFFFF + 1#16) = .ok 0xFF) ∧
      ((romEnd 0xA5).runState = .running ∧ (romEnd 0xA5).iRead (romEnd 0xA5).pc = .ok 0xA5 ∧
        (romEnd 0xA5).iRead ((romEnd 0xA5).pc + 1#16) = .raise (.fetchOutOfRange 1)) ∧
      ((romEnd 0xA5).src = .rom [0xA5] ∧ min ([0xA5] : List Byte).length 65536 ≤ (romEnd 0xA5).pc.toNat + 1) := by decide
theorem witness_LdaAbsoluteLoadsFromItsAddress :
    ((st 0 0 0 0 0 0xFFFE [(0xFFFE, 0xAD), (0xFFFF, 0x10)]).runState = .running ∧
      (st 0 0 0 0 0 0xFFFE [(0xFFFE, 0xAD), (0xFFFF, 0x10)]).iRead 0xFFFE = .ok 0xAD ∧
      (st 0 0 0 0 0 0xFFFE [(0xFFFE, 0xAD), (0xFFFF, 0x10)]).iRead (0xFFFE + 1#16) = .ok 0x10 ∧
      (st 0 0 0 0 0 0xFFFE [(0xFFFE, 0xAD), (0xFFFF, 0x10)]).iRead (0xFFFE + 2#16) = .ok 0x00) ∧
      ((romEnd 0xAD).runState = .running ∧ (romEnd 0xAD).iRead (romEnd 0xAD).pc = .ok 0xAD ∧
        (romEnd 0xAD).iRead ((romEnd 0xAD).pc + 1#16) = .raise (.fetchOutOfRange 1)) ∧
      ((romEnd 0xAD).src = .rom [0xAD] ∧ min ([0xAD] : List Byte).length 65536 ≤ (romEnd 0xAD).pc.toNat + 1) ∧
      ((stRom 0 0 0 0 0 0 [] [0xAD, 0x34]).runState = .running ∧
        (stRom 0 0 0 0 0 0 [] [0xAD, 0x34]).iRead 0x0000 = .ok 0xAD ∧
        (stRom 0 0 0 0 0 0 [] [0xAD, 0x34]).iRead (0x0000 + 1#16) = .ok 0x34 ∧
        (stRom 0 0 0 0 0 0 [] [0xAD, 0x34]).iRead (0x0000 + 2#16) = .raise (.fetchOutOfRange 2) ∧
        min ([0xAD, 0x34] : List Byte).length 65536 = (stRom 0 0 0 0 0 0 [] [0xAD, 0x34]).pc.toNat + 2) := by decide

/-- A sequence whose last instruction, opcode `op`, stands where its positions end, at `0xFFFF`. -/
def romTop (op : Byte) : List Byte := List.replicate 65535 0xE8#8 ++ [op]
/-- Running at the last position of that sequence. -/
def sTop (op : Byte) : State := stRom 0x01 0x02 0x03 0x7F 0x05 0xFFFF [] (romTop op)

theorem romTop_length (op : Byte) : (romTop op).length = 65536 := by
  rw [romTop, List.length_append, List.length_replicate]
  rfl
/-- The byte at `0xFFFF` can be read. -/
theorem sTop_reads (op : Byte) : (sTop op).iRead (sTop op).pc = .ok op := by
  have h : (romTop op)[65535]? = some op := by
    rw [romTop, List.getElem?_append_right (by rw [List.length_replicate]), List.length_replicate]
    rfl
  have hi : (sTop op).streamIndex (sTop op).pc = 65535 := by
    rw [State.streamIndex_pc]
    rfl
  have hsrc : (sTop op).src = .rom (romTop op) := rfl
  simp only [State.iRead, hsrc, hi, if_pos (show 65535 < 2 ^ 16 by decide), h]
/-- The boundary that R70 is about: the opcode byte at `0xFFFF` of 65536 bytes, clause 5 of the three LDA statements. -/
theorem witness_LdaStatementsAtTheLastPosition :
    ∀ op ∈ [0xA9#8, 0xA5#8, 0xAD#8], (sTop op).runState = .running ∧ (sTop op).src = .rom (romTop op) ∧
      (sTop op).iRead (sTop op).pc = .ok op ∧ min (romTop op).length 65536 ≤ (sTop op).pc.toNat + 1 := by
  intro op _
  exact ⟨rfl, rfl, sTop_reads op, by rw [romTop_length]; exact Nat.le_refl _⟩
theorem witness_TaxCopiesAToX : (romEnd 0xAA).runState = .running ∧ (romEnd 0xAA).iRead (romEnd 0xAA).pc = .ok 0xAA := by
  decide
theorem witness_InxIncrementsXModulo256 :
    (romEnd 0xE8).runState = .running ∧ (romEnd 0xE8).iRead (romEnd 0xE8).pc = .ok 0xE8 := by decide
theorem witness_BrkHaltsAndChangesNothingElse :
    (romEnd 0x00).runState = .running ∧ (romEnd 0x00).iRead (romEnd 0x00).pc = .ok 0x00 := by decide
theorem witness_LoadHandlerLoadsTheResolvedByte :
    (w1.effectiveAddress .zeroPage = .ok 0x00A9 ∧ w1.loadOperand .zeroPage 0x00A9 = .ok 0x00) ∧
      handlerLda .noneAddressing w1 = .raise .invalidAddressingMode ∧
      (w1.mem.wf = true ∧ w1.src = .mem ∧
        (w1.setMem (w1.mem.write 0x00A9 0x55)).effectiveAddress .zeroPage = .ok 0x00A9) := by decide
theorem witness_InstructionFrame :
    ∀ i ∈ [Instr.brk, .ldaZp 0xFF, .ldaImm 0x80, .tax, .ldaAbs 0xFFFF, .inx],
      nextIs (exec i w1) (after i w1) = true := by decide
theorem witness_FlagsAreThoseOfTheRegisterWritten :
    ∀ i ∈ [Instr.ldaZp 0x00, .ldaImm 0x00, .tax, .ldaAbs 0x1234, .inx], nextIs (exec i w1) (after i w1) = true := by decide
theorem witness_StepRunsTheDecodedInstruction :
    (w1.runState = .running ∧ (Instr.ldaImm 0x80).wellFormed = true ∧
      decode (w1.streamBytes w1.pc 3) = .instr (.ldaImm 0x80) [0x00]) ∧
      (∀ k b, (encode (.ldaImm 0x80))[k]? = some b → w1.iRead (w1.pc + BitVec.ofNat 16 k) = .ok b) := by
  refine ⟨by decide, fun k b h => ?_⟩
  match k, h with
  | 0, h => obtain rfl : _ = b := Option.some.inj h; decide
  | 1, h => obtain rfl : _ = b := Option.some.inj h; decide
  | k + 2, h => cases h
theorem witness_StepIsTheSpecsDispatchLoop : w1.runState = .running ∧ (romEnd 0xAD).runState = .running := by decide
theorem witness_StepIsDefinedExactlyWhileRunning :
    nextIs (step w1) (after (.ldaImm 0x80) w1) = true ∧ nextIs (hostAct .run w2) w1 = true := by decide
theorem witness_IllegalOpcodeIsTakenAsAFault :
    (romEnd 0xFF).runState = .running ∧ (romEnd 0xFF).iRead (romEnd 0xFF).pc = .ok 0xFF ∧ 0xFF#8 ∉ legalOpcodes := by decide
theorem witness_OpcodeFetchPastTheEndIsTakenAsAFault :
    ((stRom 0 0 0 0 0 1 [] [0xE8]).runState = .running ∧ (stRom 0 0 0 0 0 1 [] [0xE8]).src = .rom [0xE8] ∧
      (stRom 0 0 0 0 0 1 [] [0xE8]).pastTop = false ∧
      ([0xE8] : List Byte).length ≤ (stRom 0 0 0 0 0 1 [] [0xE8]).pc.toNat) ∧
      ({ romEnd 0xE8 with pastTop := true }.runState = .running ∧ { romEnd 0xE8 with pastTop := true }.src = .rom [0xE8] ∧
        { romEnd 0xE8 with pastTop := true }.pastTop = true) := by decide
theorem witness_FaultsArePrecise :
    nextIs (step (romEnd 0xA9)) { romEnd 0xA9 with
      pc := 0x0001, runState := .faulted, fault := some (.fetchOutOfRange 0x0001) } = true := by decide
theorem witness_PcAdvancesByTheInstructionLength :
    nextIs (step w1) (after (.ldaImm 0x80) w1) = true ∧ w1.fetch = .instr (.ldaImm 0x80) [0x00] := by decide
theorem witness_PassingTheTopOfASequenceIsNoted :
    nextIs (step w1) (after (.ldaImm 0x80) w1) = true ∧
      nextIs (hostAct (.interpret [0xE8]) w2) { w2 with
        pc := 0x0000, src := .rom [0xE8], runState := .running } = true := by decide
theorem witness_NoStepChangesYSpMemoryOrReservedFlags : nextIs (step w1) (after (.ldaImm 0x80) w1) = true := by decide
theorem witness_NoStepReadsAFlag : nextIs (step (romEnd 0xAA)) (after .tax (romEnd 0xAA)) = true := by decide
theorem witness_BothStylesAgreeWithoutMemoryOperands :
    w1.runState = .running ∧ (stRom 0x01 0x02 0x03 0x7F 0x05 0x0000 [] [0xA9, 0x80]).runState = .running ∧
      w1.fetch = .instr (.ldaImm 0x80) [0x00] ∧
      (stRom 0x01 0x02 0x03 0x7F 0x05 0x0000 [] [0xA9, 0x80]).fetch = .instr (.ldaImm 0x80) [] ∧
      (Instr.ldaImm 0x80).mode = .immediate ∧
      (w1.a = 0x01 ∧ w1.x = 0x02 ∧ w1.y = 0x03 ∧ w1.p = 0x7F ∧ w1.sp = 0x05) := by decide
theorem witness_ResetZeroesAXPAndReadsTheVector : b5.runState ≠ .running := by decide
theorem witness_LoadStoresTheProgramAndTheVector :
    Inv w2 ∧ (w2.runState = .idle ∨ w2.runState = .halted) ∧ (List.replicate 0x8000 0xE8#8).length ≤ 0x8000 ∧
      (List.replicate 0x8000 0xE8#8)[0x7FFF]? = some 0xE8#8 ∧ 0x7FFF ≠ 0x7FFC ∧ 0x7FFF ≠ 0x7FFD ∧
      (0x7FFF : Addr) ≠ 0xFFFC#16 ∧ (0x7FFF : Addr) ≠ 0xFFFD#16 ∧ (0x7FFF : Addr).toNat < 0x8000 := by
  refine ⟨by decide, by decide, by rw [List.length_replicate], ?_, by decide⟩
  exact List.getElem?_replicate_of_lt (by decide)
theorem witness_TooLongLoadIsAFaultAndWritesNothing :
    (w2.runState = .idle ∨ w2.runState = .halted) ∧ 0x8000 < (List.replicate 0x8001 0xE8#8).length := by
  refine ⟨by decide, ?_⟩
  rw [List.length_replicate]
  decide
theorem witness_LoadAndRunIsLoadThenResetThenRun :
    Inv State.reset ∧ (State.reset.runState = .idle ∨ State.reset.runState = .halted) ∧
      ([0xE8, 0x00] : List Byte).length ≤ 0x8000 := by decide
theorem witness_RunAndInterpretEntries : w2.runState = .idle ∨ w2.runState = .halted := by decide
theorem witness_HostReadsAndAssignsRegisters : w2.runState ≠ .running := by decide
theorem witness_HostWriteIsSeenByTheNextFetch :
    Inv w2 ∧ (w2.runState = .idle ∨ w2.runState = .halted) ∧ Instr.inx.mode = .noneAddressing := by decide
theorem witness_EveryStepKeepsTheInvariant : Inv (romEnd 0xFF) ∧
    nextIs (step (romEnd 0xFF)) { romEnd 0xFF with
      pc := 0x0001, runState := .faulted, fault := some (.unimplementedOpcode 0xFF 0x0000) } = true := by decide
theorem witness_EveryHostActionKeepsTheInvariant :
    Inv w2 ∧ nextIs (hostAct (.write (.mem8 0x0000 0x00)) w2) { w2 with mem := [(0xFFFF, 0xA9)] } = true := by decide
/-- A step that faults, and a host action from a state that records a fault. -/
theorem witness_StepsAndHostActionsKeepSoundAndNeverMiswired :
    (Inv (romEnd 0xFF) ∧ (romEnd 0xFF).fault ≠ some .invalidAddressingMode ∧
      nextIs (step (romEnd 0xFF)) { romEnd 0xFF with
        pc := 0x0001, runState := .faulted, fault := some (.unimplementedOpcode 0xFF 0x0000) } = true) ∧
      (Inv { w2 with runState := .faulted, fault := some (.outOfRangeLoad 0x8001) } ∧
        nextIs (hostAct .reset { w2 with runState := .faulted, fault := some (.outOfRangeLoad 0x8001) })
          { w2 with a := 0x00, x := 0x00, p := 0x00, pc := 0x0000, runState := .idle } = true) := by decide
/-- A reachable state other than the first: halted after `run` from power-on (R234). -/
theorem witness_ReachableStatesAreSoundAndNeverMiswired :
    Reachable { State.reset with pc := 0x0001, runState := .halted } := by
  have hrun : hostAct .run State.reset = .next { State.reset with runState := .running } := rfl
  have hstep : step { State.reset with runState := .running } =
      .next { State.reset with pc := 0x0001, runState := .halted } := next_of_nextIs (by decide)
  exact .step (.host .run .powerOn hrun) hstep
theorem witness_AnEndedRunHasOneFinalState : Ended (runLoop 2 (romEnd 0xAA)) := by decide
theorem witness_NoRunChangesMemoryYOrSp : SafeFor 1 (romEnd 0xAA) := by decide
/-- The longest sequences: 65535 bytes, and 65536, none of them a Halt. -/
theorem witness_InterpretedRunsEnd :
    ((stRom 0 0 0 0 0 0 [] (List.replicate 65535 0xE8#8)).runState = .running ∧
      (stRom 0 0 0 0 0 0 [] (List.replicate 65535 0xE8#8)).src = .rom (List.replicate 65535 0xE8#8) ∧
      (List.replicate 65535 0xE8#8).length = 65535) ∧
      ((sTop 0xE8).runState = .running ∧ (sTop 0xE8).src = .rom (romTop 0xE8) ∧ (romTop 0xE8).length = 65536) :=
  ⟨⟨rfl, rfl, List.length_replicate⟩, rfl, rfl, romTop_length 0xE8⟩
/-- `INX` at `0xFFFF` goes on with `pc` at `0x0000`. -/
theorem witness_SequencePositionsDoNotWrap :
    ∃ t, (sTop 0xE8).src = .rom (romTop 0xE8) ∧ step (sTop 0xE8) = .next t ∧ t.runState = .running ∧
      t.pc.toNat < (sTop 0xE8).pc.toNat := by
  have hs : step (sTop 0xE8) = exec .inx (sTop 0xE8) := by
    rw [step_of_running rfl, State.fetch, State.streamBytes_ok (sTop_reads 0xE8)]
    rfl
  exact ⟨_, rfl, hs, rfl, by decide⟩

/-- Cells `low` to `low + n - 1`, each `0xE8`. -/
def filled : Nat → Nat → Memory
  | _, 0 => []
  | low, n + 1 => (low, 0xE8#8) :: filled (low + 1) n

theorem filled_get (n : Nat) : ∀ low q, low ≤ q → q < low + n → (filled low n).get q = 0xE8#8 := by
  induction n with
  | zero => intro low q h1 h2; omega
  | succ n ih =>
    intro low q h1 h2
    by_cases h : low = q
    · simp [filled, Memory.get, h]
    · simp only [filled, Memory.get, if_neg h]
      exact ih (low + 1) q (by omega) (by omega)

/-- P13's memory. -/
theorem witness_MemoryFullOfIncrementsNeverHalts :
    ∃ s : State, s.runState = .running ∧ s.src = .mem ∧ ∀ addr, s.mem.read addr = 0xE8#8 :=
  ⟨st 0 0 0 0 0 0xE8E8 (filled 0 65536), rfl, rfl, fun addr => filled_get 65536 0 addr.toNat (Nat.zero_le _) (by
    have := addr.isLt; omega)⟩

end Sys2Proof.Tests
end

section
/-!
Family 20_memory.md: the 16-bit reads as sums of two bytes, and the zero-page pointer read against the linear one.
-/
namespace Sys2Proof.Machine

theorem zext16_eq_ofNat (b : Byte) : zext16 b = BitVec.ofNat 16 b.toNat :=
  (BitVec.ofNat_toNat 16 b).symm

/-- The zero-page successor, as an address (R56). -/
theorem zext16_succ_eq_ofNat (p : Byte) : zext16 (p + 1#8) = BitVec.ofNat 16 ((p.toNat + 1) % 256) := by
  rw [zext16_eq_ofNat, BitVec.toNat_add]
  rfl

/-- Below `0xFF` nothing is carried out of the zero page, so both successors are one. -/
theorem zext16_succ_of_ne (p : Byte) (h : p ≠ 0xFF#8) : zext16 (p + 1#8) = zext16 p + 1#16 := by
  have hp : p.toNat < 255 := by bv_omega
  apply BitVec.eq_of_toNat_eq
  rw [zext16_toNat, BitVec.toNat_add, BitVec.toNat_add, zext16_toNat]
  simp only [BitVec.toNat_ofNat]
  omega

theorem Memory.read16_toNat (m : Memory) (addr : Addr) :
    (m.read16 addr).toNat = (m.read addr).toNat + 256 * (m.read (addr + 1#16)).toNat :=
  ofBytes_toNat _ _

theorem Memory.readZP16_toNat (m : Memory) (p : Byte) :
    (m.readZP16 p).toNat = (m.read (BitVec.ofNat 16 p.toNat)).toNat +
      256 * (m.read (BitVec.ofNat 16 ((p.toNat + 1) % 256))).toNat := by
  rw [Memory.readZP16, ofBytes_toNat, zext16_succ_eq_ofNat, zext16_eq_ofNat]

theorem Memory.readZP16_eq_read16_of_ne (m : Memory) (p : Byte) (h : p ≠ 0xFF#8) :
    m.readZP16 p = m.read16 (zext16 p) := by
  rw [Memory.readZP16, zext16_succ_of_ne p h, Memory.read16]

/-- Settles O7: both reads are sums of two bytes, and their high bytes' addresses differ only behind `0xFF`, where the
zero-page successor is `0x0000` and the linear one `0x0100`. -/
theorem zeroPagePointerReadStaysInTheZeroPage : Obligations.ZeroPagePointerReadStaysInTheZeroPage := by
  intro m p
  refine ⟨m.readZP16_toNat p, fun hne => ?_, ?_⟩
  · rw [← zext16_eq_ofNat]
    exact m.readZP16_eq_read16_of_ne p hne
  · rintro rfl
    exact ⟨m.readZP16_toNat 0xFF#8, m.read16_toNat 0x00FF#16⟩

end Sys2Proof.Machine
end

section
/-!
Family 40_addressing_modes.md: the address each mode computes from its operand bytes, as a number.
-/
namespace Sys2Proof.Machine

@[simp] theorem eaZeroPage_toNat (d8 : Byte) : (eaZeroPage d8).toNat = d8.toNat :=
  zext16_toNat d8

/-- The carry of the 8-bit sum is lost before the zero-extension (R113). -/
theorem eaZeroPageIndexed_toNat (d8 index : Byte) :
    (eaZeroPageIndexed d8 index).toNat = (d8.toNat + index.toNat) % 256 := by
  rw [eaZeroPageIndexed, zext16_toNat, BitVec.toNat_add]

theorem eaAbsolute_toNat (hi lo : Byte) : (eaAbsolute hi lo).toNat = lo.toNat + 256 * hi.toNat :=
  ofBytes_toNat hi lo

theorem eaAbsoluteIndexed_toNat (hi lo index : Byte) :
    (eaAbsoluteIndexed hi lo index).toNat = (lo.toNat + 256 * hi.toNat + index.toNat) % 65536 := by
  rw [eaAbsoluteIndexed, BitVec.toNat_add, ofBytes_toNat, zext16_toNat]

/-- The pointer is indexed, modulo 256, and its high byte stands at the zero-page successor (R118). -/
theorem eaIndirectX_toNat (m : Memory) (d8 x : Byte) :
    (eaIndirectX m d8 x).toNat = (m.read (BitVec.ofNat 16 ((d8.toNat + x.toNat) % 256))).toNat +
      256 * (m.read (BitVec.ofNat 16 (((d8.toNat + x.toNat) % 256 + 1) % 256))).toNat := by
  rw [eaIndirectX, Memory.readZP16_toNat, BitVec.toNat_add]

/-- What the pointer names is indexed, modulo 65536 (R119). -/
theorem eaIndirectY_toNat (m : Memory) (d8 y : Byte) :
    (eaIndirectY m d8 y).toNat = ((m.read (BitVec.ofNat 16 d8.toNat)).toNat +
      256 * (m.read (BitVec.ofNat 16 ((d8.toNat + 1) % 256))).toNat + y.toNat) % 65536 := by
  rw [eaIndirectY, BitVec.toNat_add, Memory.readZP16_toNat, zext16_toNat]

/-- Settles O9: the operand byte is read, and each mode's address is its function of that byte. -/
theorem oneByteModesComputeTheirAddress : Obligations.OneByteModesComputeTheirAddress := by
  refine ⟨fun _ => rfl, fun s d8 hread => ⟨?zeroPage, ?zeroPageX, ?indirectX, ?indirectY⟩⟩
  case zeroPage => exact ⟨_, State.withOperand8_ok hread _, eaZeroPage_toNat d8⟩
  case zeroPageX => exact ⟨_, State.withOperand8_ok hread _, eaZeroPageIndexed_toNat d8 s.x⟩
  case indirectX => exact ⟨_, State.withOperand8_ok hread _, eaIndirectX_toNat s.mem d8 s.x⟩
  case indirectY => exact ⟨_, State.withOperand8_ok hread _, eaIndirectY_toNat s.mem d8 s.y⟩

/-- Under `run` the two operand bytes are those of `MemRead(pc, 2)` (R115). -/
theorem State.effectiveAddress_absolute_mem {s : State} (h : s.src = .mem) :
    s.effectiveAddress .absolute = .ok (s.mem.read16 s.pc) :=
  State.withOperand16_ok (State.iRead_mem h _) (State.iRead_mem h _) eaAbsolute

/-- Settles O10: both operand bytes are read, and each mode's address is its function of the two. -/
theorem twoByteModesComputeTheirAddress : Obligations.TwoByteModesComputeTheirAddress := by
  refine ⟨fun s lo hi hlo hhi => ⟨?absolute, ?absoluteX, ?absoluteY⟩, fun _ => State.effectiveAddress_absolute_mem⟩
  case absolute => exact ⟨_, State.withOperand16_ok hlo hhi _, eaAbsolute_toNat hi lo⟩
  case absoluteX => exact ⟨_, State.withOperand16_ok hlo hhi _, eaAbsoluteIndexed_toNat hi lo s.x⟩
  case absoluteY => exact ⟨_, State.withOperand16_ok hlo hhi _, eaAbsoluteIndexed_toNat hi lo s.y⟩

end Sys2Proof.Machine
end

section
/-!
Family 41_flag_unit.md: the flag unit bit by bit, and its closed form.
-/
namespace Sys2Proof.Machine

/-- R130 bit by bit: `N` is written last, and the two writes do not meet. -/
theorem znFlags_getLsbD (p v : Byte) (j : Nat) :
    (znFlags p v).getLsbD j = if j = 7 then v.getLsbD 7 else if j = 1 then v == 0x00#8 else p.getLsbD j := by
  rw [znFlags, setBit_getLsbD _ (show nBit < 8 by decide), setBit_getLsbD _ (show zBit < 8 by decide)]
  rfl

/-- The closed form of R130 writes the same bits: each of the eight is kept, written or masked by the three constants. -/
theorem flagsAfter_getLsbD (p v : Byte) {j : Nat} (hj : j < 8) :
    (Claims.flagsAfter p v).getLsbD j =
      if j = 7 then v.getLsbD 7 else if j = 1 then v == 0x00#8 else p.getLsbD j := by
  by_cases hv : v = 0x00#8
  · interval_cases j <;> simp [Claims.flagsAfter, hv]
  · interval_cases j <;> simp [Claims.flagsAfter, hv]

theorem znFlags_eq_flagsAfter (p v : Byte) : znFlags p v = Claims.flagsAfter p v :=
  BitVec.eq_of_getLsbD_eq fun j hj => by rw [znFlags_getLsbD, flagsAfter_getLsbD p v hj]

/-- Settles O12: the closed form, the two written bits and the kept ones are read off the flags bit by bit; that an earlier
call leaves no trace is `znFlags_absorb`. -/
theorem flagUnitWritesZeroAndNegativeOnly : Obligations.FlagUnitWritesZeroAndNegativeOnly := by
  refine ⟨fun s v => ?closedForm, fun p v => ⟨?zero, ?negative, fun j h1 h7 => ?others⟩, znFlags_absorb⟩
  case closedForm => rw [State.setZN_eq, znFlags_eq_flagsAfter, State.setP]
  case zero => rw [znFlags_getLsbD, if_neg (by decide), if_pos rfl, beq_iff_eq]
  case negative =>
    have hmsb : v.getLsbD 7 = decide (0x80 ≤ v.toNat) := BitVec.msb_eq_decide v
    rw [znFlags_getLsbD, if_pos rfl, hmsb, decide_eq_true_iff]
  case others => rw [znFlags_getLsbD, if_neg h7, if_neg h1]

end Sys2Proof.Machine
end

section
/-!
Family 42_load.md: the LDA handler is the resolver, then the operand read, then the load of `x[A]` with its flags.
-/
namespace Sys2Proof.Machine

@[simp] theorem Checked.andThen_ok {α β : Type} (v : α) (f : α → Checked β) : (Checked.ok v).andThen f = f v := rfl

/-- A statement sequence raises where its first part does, or where the rest does on the first part's value (R11). -/
theorem Checked.andThen_eq_raise {α β : Type} {c : Checked α} {f : α → Checked β} {r : FaultRecord} :
    c.andThen f = .raise r ↔ c = .raise r ∨ ∃ v, c = .ok v ∧ f v = .raise r := by
  cases c <;> simp [Checked.andThen]

/-- The load of `x[A]` with the flag unit's closed form (R130) for its flags. -/
theorem State.loadA_eq (s : State) (v : Byte) : s.loadA v = { s with a := v, p := Claims.flagsAfter s.p v } := by
  rw [State.loadA, State.setZN_eq, State.setA_p, znFlags_eq_flagsAfter, State.setP, State.setA]

/-- Under `run` the stream is memory, so an immediate too is a memory read (R69, R123). -/
theorem State.loadOperand_mem {s : State} (h : s.src = .mem) (mode : AddrMode) (ea : Addr) :
    s.loadOperand mode ea = .ok (s.mem.read ea) := by
  cases mode with
  | immediate => exact State.iRead_mem h ea
  | zeroPage | zeroPageX | zeroPageY | absolute | absoluteX | absoluteY | indirectX | indirectY | noneAddressing => rfl

theorem Memory.read_write_same {m : Memory} (h : m.wf = true) (addr : Addr) (v : Byte) :
    (m.write addr v).read addr = v := by
  rw [Memory.read_write h, if_pos rfl]

theorem handlerLda_ok {mode : AddrMode} {s : State} {ea : Addr} {v : Byte} (hea : s.effectiveAddress mode = .ok ea)
    (hv : s.loadOperand mode ea = .ok v) : handlerLda mode s = .ok (s.loadA v) := by
  rw [handlerLda, hea, Checked.andThen_ok, hv, Checked.andThen_ok, State.loadA]

/-- The assignments of R140 raise nothing, so a fault of the handler is the resolver's or the operand read's. -/
theorem handlerLda_raise {mode : AddrMode} {s : State} {r : FaultRecord} (h : handlerLda mode s = .raise r) :
    s.effectiveAddress mode = .raise r ∨
      ∃ ea, s.effectiveAddress mode = .ok ea ∧ s.loadOperand mode ea = .raise r := by
  obtain hea | ⟨ea, hea, hrest⟩ := Checked.andThen_eq_raise.1 h
  · exact .inl hea
  · obtain hv | ⟨v, -, hload⟩ := Checked.andThen_eq_raise.1 hrest
    · exact .inr ⟨ea, hea, hv⟩
    · cases hload

/-- Settles O19: a byte written at the resolved address is what the operand read answers there, immediates included, since
the stream is memory. -/
theorem loadHandlerLoadsTheResolvedByte : Obligations.LoadHandlerLoadsTheResolvedByte := by
  refine ⟨fun mode s ea v hea hv => ?loads, fun _ _ _ => handlerLda_raise, fun mode s ea b hwf hsrc hea => ?roundTrip⟩
  case loads => rw [handlerLda_ok hea hv, State.loadA_eq]
  case roundTrip =>
    have hread : (s.setMem (s.mem.write ea b)).loadOperand mode ea = .ok b := by
      rw [State.loadOperand_mem (by simpa using hsrc), State.setMem_mem, Memory.read_write_same hwf]
    rw [handlerLda_ok hea hread, State.loadA_eq, State.setMem_p, State.setMem]

end Sys2Proof.Machine
end

section
/-!
Family 43_transfer.md: an opcode byte without operands is fetched, decoded and executed in one step, and TAX is such a byte.
-/
namespace Sys2Proof.Machine

/-- The load of `x[X]` with the flag unit's closed form (R130) for its flags. -/
theorem State.loadX_eq (s : State) (v : Byte) : s.loadX v = { s with x := v, p := Claims.flagsAfter s.p v } := by
  rw [State.loadX, State.setZN_eq, State.setX_p, znFlags_eq_flagsAfter, State.setP, State.setX]

@[simp] theorem State.pastTopAfter_zero (s : State) : s.pastTopAfter 0 = s.pastTop := by
  have hpc := s.pc.isLt
  unfold State.pastTopAfter
  cases s.src with
  | mem => rfl
  | rom bytes => rw [decide_eq_false (by omega), Bool.or_false]

/-- A mode without operand bytes skips nothing (R89). -/
@[simp] theorem State.advancePC_zero (s : State) : s.advancePC 0 = s := by
  rw [State.advancePC, State.pastTopAfter_zero, BitVec.add_zero]
  rfl

/-- An opcode byte that can be read is the first byte the decoder sees. -/
theorem State.fetch_of_iRead {s : State} {op : Byte} (h : s.iRead s.pc = .ok op) :
    s.fetch = decode (op :: s.streamBytes (s.pc + 1#16) 2) := by
  rw [State.fetch, State.streamBytes_ok h]

theorem step_of_fetch_instr {s : State} {i : Instr} {rest : List Byte} (hrun : s.runState = .running)
    (hfetch : s.fetch = .instr i rest) : step s = exec i s := by
  rw [step_of_running hrun, hfetch]

/-- An opcode byte that decodes whatever follows it needs no operand, so reading it is all the step needs. -/
theorem step_of_iRead_opcode {s : State} {op : Byte} {i : Instr} (hdec : ∀ rest, decode (op :: rest) = .instr i rest)
    (hrun : s.runState = .running) (hread : s.iRead s.pc = .ok op) : step s = exec i s :=
  step_of_fetch_instr hrun ((State.fetch_of_iRead hread).trans (hdec _))

theorem decode_tax (rest : List Byte) : decode (0xAA#8 :: rest) = .instr .tax rest := rfl

/-- R150: past the opcode byte, the copy with its flags; there is no operand to skip. -/
theorem exec_tax (s : State) : exec .tax s = .next ((s.advancePC 1).loadX s.a) :=
  congrArg Host.Outcome.next (State.advancePC_zero _)

/-- Settles O16: the copy and its flags are `State.loadX_eq` behind the opcode byte, and the passing noted is the one of that
byte alone. -/
theorem taxCopiesAToX : Obligations.TaxCopiesAToX := by
  refine ⟨decode_tax, fun s => ⟨s.pastTopAfter 1, ?copies⟩, fun s => step_of_iRead_opcode decode_tax⟩
  case copies =>
    rw [exec_tax, State.loadX_eq]
    rfl

end Sys2Proof.Machine
end

section
/-!
Family 44_increment.md: INX is the load of `x[X]` with its successor modulo 256, and `n` of them add `n`.
-/
namespace Sys2Proof.Machine

theorem decode_inx (rest : List Byte) : decode (0xE8#8 :: rest) = .instr .inx rest := rfl

/-- R155: past the opcode byte, the increment with its flags; there is no operand to skip. -/
theorem exec_inx (s : State) : exec .inx s = .next ((s.advancePC 1).loadX (s.x + 0x01#8)) :=
  congrArg Host.Outcome.next (State.advancePC_zero _)

/-- The sum of R155 as the number it names. -/
theorem add_one_eq_ofNat_mod (x : Byte) : x + 0x01#8 = BitVec.ofNat 8 ((x.toNat + 1) % 256) :=
  BitVec.eq_of_toNat_eq (by simp only [BitVec.toNat_add, BitVec.toNat_ofNat, Nat.reducePow, Nat.reduceMod, Nat.mod_mod])

theorem after_inx_x (s : State) : (Claims.after .inx s).x = s.x + 0x01#8 := by
  rw [Claims.after, exec_inx, State.loadX_eq]

/-- `n` increments add `n` modulo 256. -/
theorem iterate_after_inx_x (n : Nat) (s : State) : ((Claims.after .inx)^[n] s).x = s.x + BitVec.ofNat 8 n := by
  induction n with
  | zero => exact (BitVec.add_zero _).symm
  | succ n ih => rw [Function.iterate_succ_apply', after_inx_x, ih, BitVec.add_assoc, ← BitVec.ofNat_add]

/-- Settles O17: the increment and its flags are `State.loadX_eq` behind the opcode byte, and 256 increments add
`0x00`. -/
theorem inxIncrementsXModulo256 : Obligations.InxIncrementsXModulo256 := by
  refine ⟨decode_inx, fun s => ⟨s.pastTopAfter 1, ?increments⟩, fun s => step_of_iRead_opcode decode_inx,
    fun s => ?restores⟩
  case increments =>
    rw [exec_inx, State.loadX_eq, add_one_eq_ofNat_mod]
    rfl
  case restores => exact (iterate_after_inx_x 256 s).trans (BitVec.add_zero _)

end Sys2Proof.Machine
end

section
/-!
Family 45_halt.md: BRK passes its opcode byte and halts.
-/
namespace Sys2Proof.Machine

theorem decode_brk (rest : List Byte) : decode (0x00#8 :: rest) = .instr .brk rest := rfl

/-- R160: past the opcode byte, the loop state; no operand is skipped and no flag written. -/
theorem exec_brk (s : State) : exec .brk s = .next ((s.advancePC 1).setRunState .halted) := rfl

/-- Settles O18: the next state is the one behind the opcode byte with another loop state, and the passing noted is the one
of that byte alone. -/
theorem brkHaltsAndChangesNothingElse : Obligations.BrkHaltsAndChangesNothingElse := by
  refine ⟨decode_brk, fun s => ⟨s.pastTopAfter 1, ?halts⟩, fun s => step_of_iRead_opcode decode_brk⟩
  case halts =>
    rw [exec_brk, State.setRunState, State.advancePC, State.setPC, State.setPastTop]

end Sys2Proof.Machine
end

section
/-!
Family 46_dispatch_loop.md: the decoded step and the loop of R166 agree, opcode by opcode and read by read.
-/
namespace Sys2Proof.Machine

/-! ## The decoded step, by what was fetched -/

theorem step_of_fetch_unimplemented {s : State} {op : Byte} (hrun : s.runState = .running)
    (hfetch : s.fetch = .unimplemented op) :
    step s = .next ((s.advancePC 1).takeFault (.unimplementedOpcode op s.pc)) := by
  rw [step_of_running hrun, hfetch]
  rfl

theorem step_of_fetch_truncated {s : State} {k : Nat} (hrun : s.runState = .running) (hfetch : s.fetch = .truncated k) :
    step s = faultFetch k s := by
  rw [step_of_running hrun, hfetch]

/-- A read behind `pc` that raises names the unreduced position it asked for (R70, R194). -/
theorem State.iRead_ofNat_raise {s : State} {k : Nat} {r : FaultRecord} (hk : k < 2 ^ 16)
    (h : s.iRead (s.pc + BitVec.ofNat 16 k) = .raise r) : r = .fetchOutOfRange (s.pcIndex + k) := by
  rw [State.iRead_raise h, State.streamIndex_add s hk]

/-- When the opcode fetch itself faults, nothing has been advanced (R194). -/
theorem step_of_iRead_opcode_raise {s : State} {r : FaultRecord} (hrun : s.runState = .running)
    (hread : s.iRead s.pc = .raise r) : step s = .next (s.takeFault r) := by
  have hfetch : s.fetch = .truncated 0 := by
    rw [State.fetch, State.streamBytes_raise hread]
    rfl
  rw [step_of_fetch_truncated hrun hfetch, faultFetch, if_pos rfl, State.iRead_raise hread, State.streamIndex_pc,
    Nat.add_zero]

/-- When operand byte `k` is the first that is missing, the step takes the fault of its read, past the opcode byte
(R194). -/
theorem step_of_operand_raise {s : State} {k : Nat} {r : FaultRecord} (hrun : s.runState = .running)
    (hfetch : s.fetch = .truncated k) (hpos : k ≠ 0) (hk : k < 2 ^ 16)
    (hmissing : s.iRead (s.pc + BitVec.ofNat 16 k) = .raise r) : step s = .next ((s.advancePC 1).takeFault r) := by
  rw [step_of_fetch_truncated hrun hfetch, faultFetch, if_neg hpos, State.iRead_ofNat_raise hk hmissing]

/-! ## The loop of R166, by what its actions answer -/

theorem loopStep_of_iRead_ok {s : State} {op : Byte} (hread : s.iRead s.pc = .ok op) :
    loopStep s = dispatchOpcode op (s.advancePC 1) := by
  rw [loopStep, hread]

theorem loopStep_of_iRead_raise {s : State} {r : FaultRecord} (hread : s.iRead s.pc = .raise r) :
    loopStep s = s.takeFault r := by
  rw [loopStep, hread]

/-- The position recorded is `pc0`, though `pc` is already past the byte (R191). -/
theorem dispatchOpcode_of_none {op : Byte} (hentry : dispatchEntry op = none) (s : State) :
    dispatchOpcode op (s.advancePC 1) = (s.advancePC 1).takeFault (.unimplementedOpcode op s.pc) := by
  rw [dispatchOpcode, hentry, State.advancePC_pc, BitVec.add_sub_cancel]

theorem dispatchOpcode_of_ok {s t : State} {op : Byte} {e : DispatchEntry} (hentry : dispatchEntry op = some e)
    (hhandler : runHandler e s = .ok t) : dispatchOpcode op s = t.advancePC e.operandBytes := by
  simp only [dispatchOpcode, hentry, hhandler]

theorem dispatchOpcode_of_raise {s : State} {op : Byte} {e : DispatchEntry} {r : FaultRecord}
    (hentry : dispatchEntry op = some e) (hhandler : runHandler e s = .raise r) :
    dispatchOpcode op s = s.takeFault r := by
  simp only [dispatchOpcode, hentry, hhandler]

/-- The decoder and the dispatch table know the same six opcode bytes (R86, R167). -/
theorem opcode_cases (op : Byte) :
    op = opBrk ∨ op = opLdaImm ∨ op = opLdaZp ∨ op = opLdaAbs ∨ op = opTax ∨ op = opInx ∨
      (dispatchEntry op = none ∧ ∀ rest, decode (op :: rest) = .unimplemented op) := by
  by_cases hbrk : op = opBrk
  · exact .inl hbrk
  by_cases himm : op = opLdaImm
  · exact .inr (.inl himm)
  by_cases hzp : op = opLdaZp
  · exact .inr (.inr (.inl hzp))
  by_cases habs : op = opLdaAbs
  · exact .inr (.inr (.inr (.inl habs)))
  by_cases htax : op = opTax
  · exact .inr (.inr (.inr (.inr (.inl htax))))
  by_cases hinx : op = opInx
  · exact .inr (.inr (.inr (.inr (.inr (.inl hinx)))))
  · refine .inr (.inr (.inr (.inr (.inr (.inr ⟨?table, fun rest => ?decoder⟩)))))
    case table =>
      simp [dispatchEntry, dispatchTable, List.lookup, beq_eq_false_iff_ne.2, hbrk, himm, hzp, habs, htax, hinx]
    case decoder => simp only [decode, if_neg, hbrk, himm, hzp, habs, htax, hinx, not_false_eq_true]

/-! ## The operand bytes are the same bytes on both sides -/

/-- The byte at `pc`, once `pc` is past the opcode byte. -/
theorem State.iRead_advancePC_one {s : State} {op : Byte} (hread : s.iRead s.pc = .ok op) :
    (s.advancePC 1).iRead (s.advancePC 1).pc = s.iRead (s.pc + 1#16) :=
  State.iRead_advancePC hread (n := 1) (k := 0) (by omega) (by omega)

/-- The byte behind it. -/
theorem State.iRead_advancePC_one_succ {s : State} {op : Byte} (hread : s.iRead s.pc = .ok op) :
    (s.advancePC 1).iRead ((s.advancePC 1).pc + 1#16) = s.iRead (s.pc + 2#16) := by
  rw [State.advancePC_pc, BitVec.add_assoc]
  exact State.iRead_advancePC hread (n := 1) (k := 1) (by omega) (by omega)

theorem State.streamBytes_second_ok {s : State} {b : Byte} (h : s.iRead (s.pc + 2#16) = .ok b) :
    s.streamBytes (s.pc + 1#16 + 1#16) 1 = [b] := by
  rw [BitVec.add_assoc]
  exact State.streamBytes_ok h 0

theorem State.streamBytes_second_raise {s : State} {r : FaultRecord} (h : s.iRead (s.pc + 2#16) = .raise r) :
    s.streamBytes (s.pc + 1#16 + 1#16) 1 = [] := by
  rw [BitVec.add_assoc]
  exact State.streamBytes_raise h 0

/-! ## LDA's handler as reads of the stream (R140) -/

theorem handlerLda_immediate (s : State) :
    handlerLda .immediate s = (s.iRead s.pc).andThen fun imm => .ok (s.loadA imm) := rfl

theorem handlerLda_zeroPage (s : State) :
    handlerLda .zeroPage s = (s.iRead s.pc).andThen fun zz => .ok (s.loadA (s.mem.read (eaZeroPage zz))) := by
  cases hread : s.iRead s.pc with
  | ok zz => exact handlerLda_ok (State.withOperand8_ok hread _) rfl
  | raise r => rw [handlerLda, State.effectiveAddress, State.withOperand8, hread]; rfl

theorem handlerLda_absolute_ok {s : State} {lo hi : Byte} (hlo : s.iRead s.pc = .ok lo)
    (hhi : s.iRead (s.pc + 1#16) = .ok hi) :
    handlerLda .absolute s = .ok (s.loadA (s.mem.read (eaAbsolute hi lo))) :=
  handlerLda_ok (State.withOperand16_ok hlo hhi _) rfl

theorem handlerLda_absolute_raise_low {s : State} {r : FaultRecord} (hlo : s.iRead s.pc = .raise r) :
    handlerLda .absolute s = .raise r := by
  rw [handlerLda, State.effectiveAddress, State.withOperand16, hlo]
  rfl

theorem handlerLda_absolute_raise_high {s : State} {lo : Byte} {r : FaultRecord} (hlo : s.iRead s.pc = .ok lo)
    (hhi : s.iRead (s.pc + 1#16) = .raise r) : handlerLda .absolute s = .raise r := by
  rw [handlerLda, State.effectiveAddress, State.withOperand16, hlo, Checked.andThen_ok, hhi]
  rfl

/-! ## The agreement, format by format -/

/-- A format without operand bytes: the handler runs past the opcode byte and skips nothing. -/
theorem step_eq_loopStep_of_imp {s t : State} {op : Byte} {i : Instr} {handler : Handler}
    (hrun : s.runState = .running) (hread : s.iRead s.pc = .ok op)
    (hdec : ∀ rest, decode (op :: rest) = .instr i rest)
    (hentry : dispatchEntry op = some ⟨.noneAddressing, 0, handler⟩) (hexec : exec i s = .next t)
    (hhandler : runHandler ⟨.noneAddressing, 0, handler⟩ (s.advancePC 1) = .ok t) : step s = .next (loopStep s) := by
  rw [step_of_iRead_opcode hdec hrun hread, hexec, loopStep_of_iRead_ok hread, dispatchOpcode_of_ok hentry hhandler,
    State.advancePC_zero]

/-- Format OP8 of LDA: `value` is what the mode makes of its operand byte. The operand byte is there for both sides, or
missing for both. -/
theorem step_eq_loopStep_of_op8 {s : State} {op : Byte} {mk : Byte → Instr} {mode : AddrMode} {value : Byte → Byte}
    (hrun : s.runState = .running) (hread : s.iRead s.pc = .ok op)
    (hdec : ∀ rest, decode (op :: rest) = decodeOp8 mk rest)
    (hentry : dispatchEntry op = some ⟨mode, 1, .lda⟩)
    (hexec : ∀ d8, exec (mk d8) s = .next (((s.advancePC 1).loadA (value d8)).advancePC 1))
    (hhandler : handlerLda mode (s.advancePC 1) = ((s.advancePC 1).iRead (s.advancePC 1).pc).andThen
      fun d8 => .ok ((s.advancePC 1).loadA (value d8))) : step s = .next (loopStep s) := by
  have hfetch : s.fetch = decodeOp8 mk (s.streamBytes (s.pc + 1#16) 2) := (State.fetch_of_iRead hread).trans (hdec _)
  rw [State.iRead_advancePC_one hread] at hhandler
  rw [loopStep_of_iRead_ok hread]
  cases hoperand : s.iRead (s.pc + 1#16) with
  | ok d8 =>
    rw [State.streamBytes_ok hoperand] at hfetch
    rw [hoperand] at hhandler
    rw [step_of_fetch_instr hrun hfetch, hexec, dispatchOpcode_of_ok hentry hhandler]
  | raise r =>
    rw [State.streamBytes_raise hoperand] at hfetch
    rw [hoperand] at hhandler
    rw [step_of_operand_raise hrun hfetch (by omega) (by omega) hoperand, dispatchOpcode_of_raise hentry hhandler]

/-- Format OP16, which only LDA abs has: both operand bytes are there, or the same one is the first that is missing. -/
theorem step_eq_loopStep_of_ldaAbs {s : State} (hrun : s.runState = .running) (hread : s.iRead s.pc = .ok opLdaAbs) :
    step s = .next (loopStep s) := by
  have hfetch : s.fetch = decodeOp16 .ldaAbs (s.streamBytes (s.pc + 1#16) 2) := State.fetch_of_iRead hread
  have hentry : dispatchEntry opLdaAbs = some ⟨.absolute, 2, .lda⟩ := rfl
  have hfirst := State.iRead_advancePC_one hread
  have hsecond := State.iRead_advancePC_one_succ hread
  rw [loopStep_of_iRead_ok hread]
  cases hlo : s.iRead (s.pc + 1#16) with
  | raise r =>
    rw [State.streamBytes_raise hlo] at hfetch
    rw [step_of_operand_raise hrun hfetch (by omega) (by omega) hlo,
      dispatchOpcode_of_raise hentry (handlerLda_absolute_raise_low (hfirst.trans hlo))]
  | ok lo =>
    rw [State.streamBytes_ok hlo] at hfetch
    cases hhi : s.iRead (s.pc + 2#16) with
    | raise r =>
      rw [State.streamBytes_second_raise hhi] at hfetch
      rw [step_of_operand_raise hrun hfetch (by omega) (by omega) hhi,
        dispatchOpcode_of_raise hentry (handlerLda_absolute_raise_high (hfirst.trans hlo) (hsecond.trans hhi))]
    | ok hi =>
      rw [State.streamBytes_second_ok hhi] at hfetch
      rw [step_of_fetch_instr hrun hfetch,
        dispatchOpcode_of_ok hentry (handlerLda_absolute_ok (hfirst.trans hlo) (hsecond.trans hhi))]
      rfl

theorem step_eq_loopStep_of_none {s : State} {op : Byte} (hrun : s.runState = .running)
    (hread : s.iRead s.pc = .ok op) (hentry : dispatchEntry op = none)
    (hdec : ∀ rest, decode (op :: rest) = .unimplemented op) : step s = .next (loopStep s) := by
  rw [step_of_fetch_unimplemented hrun ((State.fetch_of_iRead hread).trans (hdec _)), loopStep_of_iRead_ok hread,
    dispatchOpcode_of_none hentry]

/-- Settles O23: the opcode fetch faults on both sides, or the byte is one of the six or none of them, and each format
has its agreement. -/
theorem stepIsTheSpecsDispatchLoop : Obligations.StepIsTheSpecsDispatchLoop := by
  intro s hrun
  cases hread : s.iRead s.pc with
  | raise r => rw [step_of_iRead_opcode_raise hrun hread, loopStep_of_iRead_raise hread]
  | ok op =>
    obtain rfl | rfl | rfl | rfl | rfl | rfl | ⟨hentry, hdec⟩ := opcode_cases op
    · exact step_eq_loopStep_of_imp hrun hread decode_brk rfl (exec_brk s) rfl
    · exact step_eq_loopStep_of_op8 hrun hread (fun _ => rfl) rfl (fun _ => rfl) (handlerLda_immediate _)
    · exact step_eq_loopStep_of_op8 hrun hread (fun _ => rfl) rfl (fun _ => rfl) (handlerLda_zeroPage _)
    · exact step_eq_loopStep_of_ldaAbs hrun hread
    · exact step_eq_loopStep_of_imp hrun hread decode_tax rfl (exec_tax s) rfl
    · exact step_eq_loopStep_of_imp hrun hread decode_inx rfl (exec_inx s) rfl
    · exact step_eq_loopStep_of_none hrun hread hentry hdec

/-! ## Where a step is defined and where it ends (R165) -/

/-- An instruction leaves the loop state alone, or it is the Halt. -/
theorem exec_runState {i : Instr} {s t : State} (h : exec i s = .next t) :
    t.runState = s.runState ∨ t.runState = .halted := by
  cases i with
  | brk => cases h; exact .inr rfl
  | ldaZp _ | ldaImm _ | tax | ldaAbs _ | inx => cases h; exact .inl rfl

/-- Settles O24: in Running the loop of R166 answers the next state; a step's end is `exec`'s, or a fault taken. -/
theorem stepIsDefinedExactlyWhileRunning : Obligations.StepIsDefinedExactlyWhileRunning := by
  refine ⟨fun s => ⟨fun ⟨_, hstep⟩ => (step_cases hstep).1, fun hrun => ⟨_, stepIsTheSpecsDispatchLoop s hrun⟩⟩,
    fun s t hstep => ?ends, fun s t hact => ?entry⟩
  case ends =>
    obtain ⟨hrun, ⟨i, rest, -, hexec⟩ | ⟨op, -, rfl⟩ | ⟨k, -, rfl⟩⟩ := step_cases hstep
    · obtain hkept | hhalted := exec_runState hexec
      · exact .inl (hkept.trans hrun)
      · exact .inr (.inl hhalted)
    · exact .inr (.inr rfl)
    · exact .inr (.inr rfl)
  case entry =>
    obtain ⟨-, -, rfl⟩ := acceptedIfSound_next hact
    rfl

end Sys2Proof.Machine
end

section
/-!
Family 30_encoding.md: decoder and encoder are inverse to each other, and a stream that holds an encoding is decoded to its
instruction.
-/
namespace Sys2Proof

theorem decode_encode_append (i : Instr) (rest : List Byte) : decode (encode i ++ rest) = .instr i rest := by
  cases i with
  | brk | ldaZp _ | ldaImm _ | tax | inx => rfl
  | ldaAbs a16 =>
    have hword : decode (encode (.ldaAbs a16) ++ rest) =
        .instr (.ldaAbs (Machine.ofBytes (Machine.hiByte a16) (Machine.loByte a16))) rest := rfl
    rw [hword, Machine.ofBytes_hiByte_loByte]

/-- Settles O2: only the absolute address is cut into bytes, and it is composed of them again. -/
theorem decodeOfEncodeIsTheInstruction : Obligations.DecodeOfEncodeIsTheInstruction :=
  fun i rest _ => decode_encode_append i rest

/-- Settles O1: each example is the encoding of its instruction. -/
theorem specEncodingExamplesDecode : Obligations.SpecEncodingExamplesDecode :=
  ⟨decode_encode_append (.ldaImm 0x05#8) [], decode_encode_append (.ldaZp 0x10#8) [],
    decode_encode_append (.ldaAbs 0x1234#16) [], decode_encode_append .tax [], decode_encode_append .inx [],
    decode_encode_append .brk []⟩

/-- Format OP8: the one operand byte is the instruction's. -/
theorem eq_cons_of_decodeOp8 {mk : Byte → Instr} {bytes rest : List Byte} {i : Instr}
    (h : decodeOp8 mk bytes = .instr i rest) : ∃ d8, i = mk d8 ∧ bytes = d8 :: rest := by
  obtain ⟨-, he⟩ | ⟨d8, tail, rfl, he⟩ := decodeOp8_cases mk bytes <;> rw [he] at h <;> cases h
  exact ⟨d8, rfl, rfl⟩

/-- Format OP16: the two operand bytes are those of the address. -/
theorem eq_cons_cons_of_decodeOp16 {mk : Addr → Instr} {bytes rest : List Byte} {i : Instr}
    (h : decodeOp16 mk bytes = .instr i rest) :
    ∃ a16, i = mk a16 ∧ bytes = Machine.loByte a16 :: Machine.hiByte a16 :: rest := by
  obtain ⟨-, he⟩ | ⟨lo, -, he⟩ | ⟨lo, hi, tail, rfl, he⟩ := decodeOp16_cases mk bytes <;> rw [he] at h <;> cases h
  exact ⟨_, rfl, by rw [Machine.loByte_ofBytes, Machine.hiByte_ofBytes]⟩

theorem eq_encode_append_of_decode {bytes rest : List Byte} {i : Instr} (h : decode bytes = .instr i rest) :
    bytes = encode i ++ rest := by
  cases bytes with
  | nil => cases h
  | cons op tail =>
    obtain rfl | rfl | rfl | rfl | rfl | rfl | ⟨-, hdec⟩ := Machine.opcode_cases op
    · cases h; rfl
    · obtain ⟨imm, rfl, rfl⟩ := eq_cons_of_decodeOp8 (mk := .ldaImm) h; rfl
    · obtain ⟨zz, rfl, rfl⟩ := eq_cons_of_decodeOp8 (mk := .ldaZp) h; rfl
    · obtain ⟨a16, rfl, rfl⟩ := eq_cons_cons_of_decodeOp16 (mk := .ldaAbs) h; rfl
    · cases h; rfl
    · cases h; rfl
    · rw [hdec] at h; cases h

/-- Settles O3: the opcode byte chooses the format, and each format's operand bytes are the instruction's. -/
theorem encodeOfDecodeIsTheBytes : Obligations.EncodeOfDecodeIsTheBytes :=
  fun _ _ _ => eq_encode_append_of_decode

theorem decode_unimplemented_of_not_legal {op : Byte} (h : op ∉ Claims.legalOpcodes) (rest : List Byte) :
    decode (op :: rest) = .unimplemented op := by
  obtain rfl | rfl | rfl | rfl | rfl | rfl | ⟨-, hdec⟩ := Machine.opcode_cases op
  pick_goal 7
  · exact hdec rest
  all_goals exact absurd (by decide) h

/-- A legal opcode byte is decoded, or an operand byte is missing behind it. -/
theorem decode_ne_unimplemented_of_legal {op : Byte} (h : op ∈ Claims.legalOpcodes) (rest : List Byte) :
    decode (op :: rest) ≠ .unimplemented op := by
  have h8 (mk : Byte → Instr) : decodeOp8 mk rest ≠ .unimplemented op := by
    obtain ⟨-, he⟩ | ⟨_, _, -, he⟩ := decodeOp8_cases mk rest <;> rw [he] <;> exact Decoded.noConfusion
  have h16 (mk : Addr → Instr) : decodeOp16 mk rest ≠ .unimplemented op := by
    obtain ⟨-, he⟩ | ⟨_, -, he⟩ | ⟨_, _, _, -, he⟩ := decodeOp16_cases mk rest <;> rw [he] <;> exact Decoded.noConfusion
  simp only [Claims.legalOpcodes, List.mem_cons, List.not_mem_nil, or_false] at h
  obtain rfl | rfl | rfl | rfl | rfl | rfl := h
  · exact Decoded.noConfusion
  · exact h8 .ldaZp
  · exact h8 .ldaImm
  · exact Decoded.noConfusion
  · exact h16 .ldaAbs
  · exact Decoded.noConfusion

/-- R87: the bytes refused are those outside the list of six. -/
theorem decode_unimplemented_iff (op : Byte) (rest : List Byte) :
    decode (op :: rest) = .unimplemented op ↔ op ∉ Claims.legalOpcodes :=
  ⟨fun h hlegal => decode_ne_unimplemented_of_legal hlegal rest h, fun h => decode_unimplemented_of_not_legal h rest⟩

/-- Settles O4: the refused bytes are those outside the list of six, and of 256 byte values 250 are not in it. -/
theorem exactlyTheOther250BytesAreIllegal : Obligations.ExactlyTheOther250BytesAreIllegal := by
  refine ⟨decode_unimplemented_iff, ?count⟩
  case count =>
    simp only [decode_unimplemented_iff]
    decide +kernel

namespace Machine

/-- Bytes that can be read one after another from `pos` are what the decoder sees first. -/
theorem State.streamBytes_eq_append {s : State} {bytes : List Byte} {pos : Addr} {n : Nat} (hn : bytes.length ≤ n)
    (h : ∀ k b, bytes[k]? = some b → s.iRead (pos + BitVec.ofNat 16 k) = .ok b) :
    ∃ rest, s.streamBytes pos n = bytes ++ rest := by
  induction bytes generalizing pos n with
  | nil => exact ⟨_, rfl⟩
  | cons b bs ih =>
    obtain ⟨m, rfl⟩ : ∃ m, n = m + 1 := ⟨n - 1, by rw [List.length_cons] at hn; omega⟩
    have hfirst : s.iRead pos = .ok b := by simpa using h 0 b rfl
    have hlater : ∀ k c, bs[k]? = some c → s.iRead (pos + 1#16 + BitVec.ofNat 16 k) = .ok c := by
      intro k c hk
      rw [BitVec.add_assoc, ← BitVec.ofNat_add, Nat.add_comm]
      exact h (k + 1) c hk
    obtain ⟨rest, hrest⟩ := ih (Nat.le_of_succ_le_succ hn) hlater
    exact ⟨rest, by rw [State.streamBytes_ok hfirst, hrest, List.cons_append]⟩

theorem encode_length (i : Instr) : (encode i).length = i.length := by
  cases i <;> rfl

theorem length_le_three (i : Instr) : i.length ≤ 3 := by
  cases i with
  | brk | tax | inx => exact (by decide : 1 ≤ 3)
  | ldaZp _ | ldaImm _ => exact (by decide : 2 ≤ 3)
  | ldaAbs _ => exact Nat.le_refl 3

/-- Settles O22: what the decoder makes of the stream's bytes is executed, and an encoding at `pc` is decoded to its
instruction. -/
theorem stepRunsTheDecodedInstruction : Obligations.StepRunsTheDecodedInstruction := by
  refine ⟨fun s i rest hrun _ => step_of_fetch_instr hrun, fun s i hrun _ hbytes => ?_⟩
  obtain ⟨rest, hstream⟩ := State.streamBytes_eq_append ((encode_length i).trans_le (length_le_three i)) hbytes
  refine step_of_fetch_instr hrun (rest := rest) ?_
  rw [State.fetch, hstream, decode_encode_append]

end Machine

end Sys2Proof
end
section
/-!
What one instruction and one step do, said once: `pc` moves by the instruction's length and the instruction has its effect,
or the fault met in fetching it is taken.
-/
namespace Sys2Proof.Machine

/-- What an instruction does beside moving `pc` (R141 to R143, R150, R155, R160). -/
def State.perform (i : Instr) (s : State) : State :=
  match i with
  | .brk => s.setRunState .halted
  | .ldaZp zz => s.loadA (s.mem.read (eaZeroPage zz))
  | .ldaImm imm => s.loadA imm
  | .tax => s.loadX s.a
  | .ldaAbs a16 => s.loadA (s.mem.read a16)
  | .inx => s.loadX (s.x + 0x01#8)

section perform
variable (i : Instr) (s : State)
@[simp] theorem State.perform_y : (s.perform i).y = s.y := by cases i <;> rfl
@[simp] theorem State.perform_sp : (s.perform i).sp = s.sp := by cases i <;> rfl
@[simp] theorem State.perform_pc : (s.perform i).pc = s.pc := by cases i <;> rfl
@[simp] theorem State.perform_mem : (s.perform i).mem = s.mem := by cases i <;> rfl
@[simp] theorem State.perform_fault : (s.perform i).fault = s.fault := by cases i <;> rfl
@[simp] theorem State.perform_src : (s.perform i).src = s.src := by cases i <;> rfl
@[simp] theorem State.perform_pastTop : (s.perform i).pastTop = s.pastTop := by cases i <;> rfl
end perform

/-- The value the flag unit is called with; BRK calls it with none. -/
def State.flagValue (i : Instr) (s : State) : Option Byte :=
  match i with
  | .brk => none
  | .ldaZp zz => some (s.mem.read (eaZeroPage zz))
  | .ldaImm imm => some imm
  | .tax => some s.a
  | .ldaAbs a16 => some (s.mem.read a16)
  | .inx => some (s.x + 0x01#8)

theorem State.perform_p (i : Instr) (s : State) :
    (s.perform i).p = match s.flagValue i with
      | none => s.p
      | some v => znFlags s.p v := by
  cases i <;> rfl

/-- Every instruction has its effect at `pc` past its bytes (R166, R168). -/
theorem exec_eq (i : Instr) (s : State) : exec i s = .next ((s.advancePC i.length).perform i) := by
  cases i with
  | brk => rfl
  | tax => exact exec_tax s
  | inx => exact exec_inx s
  | ldaZp zz =>
    exact congrArg (fun t => Host.Outcome.next (t.loadA (s.mem.read (eaZeroPage zz))))
      (s.advancePC_add (n := 1) (k := 1) (by omega) (by omega))
  | ldaImm imm =>
    exact congrArg (fun t => Host.Outcome.next (t.loadA imm))
      (s.advancePC_add (n := 1) (k := 1) (by omega) (by omega))
  | ldaAbs a16 =>
    exact congrArg (fun t => Host.Outcome.next (t.loadA (s.mem.read a16)))
      (s.advancePC_add (n := 1) (k := 2) (by omega) (by omega))

theorem exec_eq_next_iff {i : Instr} {s t : State} :
    exec i s = .next t ↔ t = (s.advancePC i.length).perform i := by
  rw [exec_eq, Host.Outcome.next.injEq, eq_comm]

/-- The faults a step can take from `s` (R191, R194), each with the bytes `pc` has been advanced by. -/
inductive StepFault (s : State) : Nat → FaultRecord → Prop where
  | unimplemented (op : Byte) : StepFault s 1 (.unimplementedOpcode op s.pc)
  | opcodeMissing : StepFault s 0 (.fetchOutOfRange s.pcIndex)
  | operandMissing (k : Nat) (hpos : k ≠ 0) (hk : k < 3) : StepFault s 1 (.fetchOutOfRange (s.pcIndex + k))

/-- A step has the effect of the fetched instruction, or takes one of the faults of fetching. -/
theorem step_effect {s t : State} (h : step s = .next t) :
    s.runState = .running ∧
      ((∃ i rest, s.fetch = .instr i rest ∧ t = (s.advancePC i.length).perform i) ∨
       ∃ n r, StepFault s n r ∧ t = (s.advancePC n).takeFault r) := by
  obtain ⟨hrun, ⟨i, rest, hfetch, hexec⟩ | ⟨op, -, rfl⟩ | ⟨k, hfetch, rfl⟩⟩ := step_cases h
  · exact ⟨hrun, .inl ⟨i, rest, hfetch, exec_eq_next_iff.1 hexec⟩⟩
  · exact ⟨hrun, .inr ⟨1, _, .unimplemented op, rfl⟩⟩
  · refine ⟨hrun, .inr ?_⟩
    by_cases hk : k = 0
    · subst hk
      exact ⟨0, _, .opcodeMissing, by rw [State.advancePC_zero]; rfl⟩
    · exact ⟨1, _, .operandMissing k hk (decode_truncated hfetch).2, by rw [if_neg hk]⟩

theorem State.perform_runState (i : Instr) (s : State) :
    (s.perform i).runState = s.runState ∨ (s.perform i).runState = .halted := by
  cases i with
  | brk => exact .inr rfl
  | ldaZp _ | ldaImm _ | tax | ldaAbs _ | inx => exact .inl rfl

theorem StepFault.le_one {s : State} {n : Nat} {r : FaultRecord} (h : StepFault s n r) : n ≤ 1 := by
  cases h <;> decide

/-- The resolver's fault is none of them (R192). -/
theorem StepFault.ne_invalidAddressingMode {s : State} {n : Nat} {r : FaultRecord} (h : StepFault s n r) :
    r ≠ .invalidAddressingMode := by
  cases h <;> exact FaultRecord.noConfusion

/-- What no step touches, and by how much it moves `pc` at most (R21, R28, R29, R84). -/
theorem step_frame {s t : State} (h : step s = .next t) :
    t.y = s.y ∧ t.sp = s.sp ∧ t.mem = s.mem ∧ t.src = s.src ∧
      ∃ n, n ≤ 3 ∧ t.pc = s.pc + BitVec.ofNat 16 n ∧ t.pastTop = s.pastTopAfter n := by
  obtain ⟨-, ⟨i, rest, -, rfl⟩ | ⟨n, r, hfault, rfl⟩⟩ := step_effect h
  · simpa using ⟨i.length, length_le_three i, rfl, rfl⟩
  · simpa using ⟨n, hfault.le_one.trans (by decide), rfl, rfl⟩

theorem step_mem {s t : State} (h : step s = .next t) : t.mem = s.mem := (step_frame h).2.2.1

/-- A step that does not end in Faulted has executed the instruction it fetched. -/
theorem step_effect_of_not_faulted {s t : State} (h : step s = .next t) (hok : t.runState ≠ .faulted) :
    ∃ i rest, s.fetch = .instr i rest ∧ t = (s.advancePC i.length).perform i := by
  obtain ⟨-, hinstr | ⟨n, r, -, rfl⟩⟩ := step_effect h
  · exact hinstr
  · exact absurd rfl hok

/-- A step that ends in Faulted has taken a fault of fetching (R198): no instruction ends there. -/
theorem step_effect_of_faulted {s t : State} (h : step s = .next t) (hfaulted : t.runState = .faulted) :
    ∃ n r, StepFault s n r ∧ t = (s.advancePC n).takeFault r := by
  obtain ⟨hrun, ⟨i, rest, -, rfl⟩ | hfault⟩ := step_effect h
  · obtain hkept | hhalted := (s.advancePC i.length).perform_runState i
    · rw [hkept, State.advancePC_runState, hrun] at hfaulted
      cases hfaulted
    · rw [hhalted] at hfaulted
      cases hfaulted
  · exact hfault

end Sys2Proof.Machine
end

section
/-!
The invariant: what a step or a host action does to memory and to the fault record, and that this keeps record and loop
state in agreement.
-/
namespace Sys2Proof.Machine

/-- What a move may do to the fault record and the loop state: keep the one and neither enter nor leave Faulted, clear the
record outside Faulted, or take a fault, never the resolver's (R31, R192, R196). -/
inductive RecordMove (s t : State) : Prop where
  | keeps (hfault : t.fault = s.fault) (hstate : t.runState = .faulted ↔ s.runState = .faulted)
  | clears (hfault : t.fault = none) (hstate : t.runState ≠ .faulted)
  | takes (r : FaultRecord) (hr : r ≠ .invalidAddressingMode) (hfault : t.fault = some r)
      (hstate : t.runState = .faulted)

theorem RecordMove.keeps_agreement {s t : State} (h : RecordMove s t)
    (hs : s.fault.isSome = true ↔ s.runState = .faulted) : t.fault.isSome = true ↔ t.runState = .faulted := by
  cases h with
  | keeps hfault hstate => rw [hfault, hstate, hs]
  | clears hfault hstate => simp [hfault, hstate]
  | takes r hr hfault hstate => simp [hfault, hstate]

theorem RecordMove.never_miswired {s t : State} (h : RecordMove s t) (hs : s.fault ≠ some .invalidAddressingMode) :
    t.fault ≠ some .invalidAddressingMode := by
  cases h with
  | keeps hfault hstate => rwa [hfault]
  | clears hfault hstate => simp [hfault]
  | takes r hr hfault hstate => simpa [hfault] using hr

theorem RecordMove.keeps_inv {s t : State} (h : RecordMove s t) (hmem : s.mem.wf = true → t.mem.wf = true)
    (hs : Inv s) : Inv t :=
  ⟨hmem hs.1, h.keeps_agreement hs.2⟩

theorem step_recordMove {s t : State} (h : step s = .next t) : RecordMove s t := by
  by_cases hfaulted : t.runState = .faulted
  · obtain ⟨n, r, hfault, rfl⟩ := step_effect_of_faulted h hfaulted
    exact .takes r hfault.ne_invalidAddressingMode rfl rfl
  · obtain ⟨i, rest, -, rfl⟩ := step_effect_of_not_faulted h hfaulted
    exact .keeps (by simp) (iff_of_false hfaulted (by simp [(step_effect h).1]))

theorem step_keeps_inv {s t : State} (hinv : Inv s) (h : step s = .next t) : Inv t :=
  (step_recordMove h).keeps_inv (fun hwf => by rwa [step_mem h]) hinv

/-- Settles O44: a step leaves memory alone, and takes a fault or neither enters nor leaves Faulted. -/
theorem everyStepKeepsTheInvariant : Obligations.EveryStepKeepsTheInvariant :=
  fun _ _ => step_keeps_inv

/-! ## The host's actions -/

/-- What an accepted action leaves (R221 to R228, R35). -/
def State.acted (act : HostAction) (s : State) : State :=
  match act with
  | .reset => s.doReset
  | .load program => s.doLoad program
  | .run => s.doRun
  | .loadAndRun program => s.doLoadAndRun program
  | .interpret rom => s.doInterpret rom
  | .write w => s.doWrite w

/-- `reset` and the direct writes are accepted in Faulted too (R232). -/
def HostAction.inFaulted : HostAction → Bool
  | .reset | .write _ => true
  | .load _ | .run | .loadAndRun _ | .interpret _ => false

theorem hostAct_next {act : HostAction} {s t : State} (h : hostAct act s = .next t) :
    s.runState ≠ .running ∧ (act.inFaulted = false → s.runState ≠ .faulted) ∧ t = s.acted act := by
  cases act with
  | reset | write _ =>
    obtain ⟨hrun, rfl⟩ := acceptedIfStopped_next h
    exact ⟨hrun, fun hact => Bool.noConfusion hact, rfl⟩
  | load _ | run | loadAndRun _ | interpret _ =>
    obtain ⟨hrun, hfaulted, rfl⟩ := acceptedIfSound_next h
    exact ⟨hrun, fun _ => hfaulted, rfl⟩

theorem doLoad_wf {s : State} (h : s.mem.wf = true) (program : List Byte) : (s.doLoad program).mem.wf = true := by
  obtain hfits | hlong := le_or_gt program.length 0x8000
  · rw [doLoad_accepted hfits]
    exact loadedMemory_wf h program
  · rw [doLoad_tooLong hlong]
    exact h

theorem doLoadAndRun_mem (s : State) (program : List Byte) : (s.doLoadAndRun program).mem = (s.doLoad program).mem := by
  obtain hfits | hlong := le_or_gt program.length 0x8000
  · rw [doLoadAndRun_accepted hfits]
    rfl
  · rw [doLoadAndRun_tooLong hlong]

theorem acted_wf {s : State} (h : s.mem.wf = true) (act : HostAction) : (s.acted act).mem.wf = true := by
  cases act with
  | load program => exact doLoad_wf h program
  | loadAndRun program =>
    rw [State.acted, doLoadAndRun_mem]
    exact doLoad_wf h program
  | write w => exact doWrite_wf h w
  | reset | run | interpret _ => exact h

theorem doLoad_recordMove (s : State) (program : List Byte) : RecordMove s (s.doLoad program) := by
  obtain hfits | hlong := le_or_gt program.length 0x8000
  · rw [doLoad_accepted hfits]
    exact .keeps rfl Iff.rfl
  · rw [doLoad_tooLong hlong]
    exact .takes _ FaultRecord.noConfusion rfl rfl

theorem doLoadAndRun_recordMove (s : State) (program : List Byte) : RecordMove s (s.doLoadAndRun program) := by
  obtain hfits | hlong := le_or_gt program.length 0x8000
  · rw [doLoadAndRun_accepted hfits]
    exact .clears rfl RunState.noConfusion
  · rw [doLoadAndRun_tooLong hlong]
    exact doLoad_recordMove s program

theorem hostAct_recordMove {act : HostAction} {s t : State} (h : hostAct act s = .next t) : RecordMove s t := by
  obtain ⟨-, hfaulted, rfl⟩ := hostAct_next h
  cases act with
  | reset => exact .clears rfl RunState.noConfusion
  | load program => exact doLoad_recordMove s program
  | loadAndRun program => exact doLoadAndRun_recordMove s program
  | run | interpret _ => exact .keeps rfl (iff_of_false RunState.noConfusion (hfaulted rfl))
  | write w => cases w <;> exact .keeps rfl Iff.rfl

theorem hostAct_keeps_inv {act : HostAction} {s t : State} (hinv : Inv s) (h : hostAct act s = .next t) : Inv t := by
  refine (hostAct_recordMove h).keeps_inv (fun hwf => ?_) hinv
  obtain ⟨-, -, rfl⟩ := hostAct_next h
  exact acted_wf hwf act

/-- Settles O45: each action writes memory by canonical writes only, and moves the record as `RecordMove` says. -/
theorem everyHostActionKeepsTheInvariant : Obligations.EveryHostActionKeepsTheInvariant :=
  fun _ _ _ => hostAct_keeps_inv

/-- Settles O53: steps and host actions keep the invariant, and neither records the resolver's fault. -/
theorem stepsAndHostActionsKeepSoundAndNeverMiswired : Obligations.StepsAndHostActionsKeepSoundAndNeverMiswired := by
  rintro s t hinv hfault (hstep | ⟨act, hact⟩)
  · exact ⟨step_keeps_inv hinv hstep, (step_recordMove hstep).never_miswired hfault⟩
  · exact ⟨hostAct_keeps_inv hinv hact, (hostAct_recordMove hact).never_miswired hfault⟩

/-- Settles O43: nothing is listed in memory, the machine is Idle and no fault is recorded. -/
theorem resetMeetsTheInvariant : Obligations.ResetMeetsTheInvariant :=
  ⟨reset_mem_wf, iff_of_false Bool.noConfusion RunState.noConfusion⟩

/-- Settles O46: it holds at power-on, and O53 is its step. -/
theorem reachableStatesAreSoundAndNeverMiswired : Obligations.ReachableStatesAreSoundAndNeverMiswired := by
  intro s hreach
  induction hreach with
  | powerOn => exact ⟨resetMeetsTheInvariant, by simp [State.reset]⟩
  | step _ hstep ih => exact stepsAndHostActionsKeepSoundAndNeverMiswired _ _ ih.1 ih.2 (.inl hstep)
  | host act _ hact ih => exact stepsAndHostActionsKeepSoundAndNeverMiswired _ _ ih.1 ih.2 (.inr ⟨act, hact⟩)

end Sys2Proof.Machine
end

section
/-!
Family 20_memory.md section 8: the instruction stream under `interpret`, by unreduced position.
-/
namespace Sys2Proof.Machine

/-- The unreduced position of an address: one wrap for an address below `pc`, one for a `pc` already past `0xFFFF`
(R70). -/
theorem State.streamIndex_eq (s : State) (pos : Addr) :
    s.streamIndex pos =
      (if s.pastTop then 65536 else 0) + (if s.pc.toNat ≤ pos.toNat then 0 else 65536) + pos.toNat := by
  have hpc := s.pc.isLt
  have hpos := pos.isLt
  simp only [State.streamIndex, State.pcIndex, BitVec.toNat_sub]
  split <;> split <;> omega

theorem State.iRead_rom_ok {s : State} {rom : List Byte} {pos : Addr} {b : Byte} (hsrc : s.src = .rom rom)
    (hidx : s.streamIndex pos < 2 ^ 16) (hget : rom[s.streamIndex pos]? = some b) : s.iRead pos = .ok b := by
  obtain ⟨hlen, -⟩ := List.getElem?_eq_some_iff.1 hget
  rw [State.iRead_rom hsrc, if_pos ⟨hidx, hlen⟩, List.getD_eq_getElem?_getD, hget, Option.getD_some]

theorem State.iRead_rom_raise {s : State} {rom : List Byte} {pos : Addr} (hsrc : s.src = .rom rom)
    (hend : min rom.length 65536 ≤ s.streamIndex pos) : s.iRead pos = .raise (.fetchOutOfRange (s.streamIndex pos)) := by
  rw [State.iRead_rom hsrc, if_neg (by omega)]

/-- What can be read stands within the sequence and its first 65536 bytes (R70). -/
theorem State.streamIndex_lt_of_iRead {s : State} {rom : List Byte} {pos : Addr} {b : Byte} (hsrc : s.src = .rom rom)
    (h : s.iRead pos = .ok b) : s.streamIndex pos < min rom.length 65536 := by
  by_contra hend
  rw [State.iRead_rom_raise hsrc (by omega)] at h
  cases h

/-- Settles O8: the byte at the unreduced position, or the fault there; an address below `pc`, or a `pc` past the top,
adds 65536 to it. -/
theorem streamReadsMemoryOrTheSequence : Obligations.StreamReadsMemoryOrTheSequence := by
  refine fun s pos => ⟨fun hsrc => State.iRead_mem hsrc pos, fun rom b hsrc hpast hle hget => ?byte,
    fun rom hsrc hpast hle hlen => ?pastEnd, fun rom hsrc hwrapped => ?wrapped⟩
  case byte =>
    have hidx : s.streamIndex pos = pos.toNat := by simp [State.streamIndex_eq, hpast, hle]
    exact State.iRead_rom_ok hsrc (hidx ▸ pos.isLt) (hidx ▸ hget)
  case pastEnd =>
    have hidx : s.streamIndex pos = pos.toNat := by simp [State.streamIndex_eq, hpast, hle]
    have := State.iRead_rom_raise (pos := pos) hsrc (by omega)
    rwa [hidx] at this
  case wrapped =>
    have hidx := s.streamIndex_eq pos
    have hpos := pos.isLt
    have htop : 65536 ≤ s.streamIndex pos := by
      obtain hpast | hlt := hwrapped
      · rw [hidx, if_pos hpast]; omega
      · rw [hidx, if_neg (Nat.not_le.2 hlt)]; omega
    refine ⟨s.streamIndex pos, htop, ?_, State.iRead_rom_raise hsrc (by omega)⟩
    rw [hidx]
    split <;> split <;> omega

/-- Settles O26: the opcode fetch raises at the unreduced position of `pc`, and the step takes that fault where it
stands. -/
theorem opcodeFetchPastTheEndIsTakenAsAFault : Obligations.OpcodeFetchPastTheEndIsTakenAsAFault := by
  intro s rom hrun hsrc
  have hfault (position : Nat) (hidx : s.pcIndex = position) (hend : min rom.length 65536 ≤ position) :
      step s = .next (s.takeFault (.fetchOutOfRange position)) := by
    have hread := State.iRead_rom_raise (pos := s.pc) hsrc (by rwa [State.streamIndex_pc, hidx])
    rw [State.streamIndex_pc, hidx] at hread
    exact step_of_iRead_opcode_raise hrun hread
  refine ⟨fun hpast hlen => hfault s.pc.toNat ?_ (by omega), fun hpast => hfault (65536 + s.pc.toNat) ?_ (by omega)⟩
  · simp [State.pcIndex, hpast]
  · simp [State.pcIndex, hpast]

/-! ## Positions counted from `pc` -/

section fromPc
variable {s : State} {rom : List Byte} {op : Byte} {k : Nat}

/-- An opcode that can be read under `interpret` stands below the top, so `pc` is its position. -/
theorem State.pcIndex_of_iRead (hsrc : s.src = .rom rom) (hread : s.iRead s.pc = .ok op) : s.pcIndex = s.pc.toNat := by
  have hlt := State.streamIndex_lt_of_iRead hsrc hread
  rw [State.streamIndex_pc, State.pcIndex] at hlt
  rw [State.pcIndex, if_neg]
  intro hpast
  rw [if_pos hpast] at hlt
  omega

theorem State.iRead_ofNat_raise_of_end (hsrc : s.src = .rom rom) (hread : s.iRead s.pc = .ok op) (hk : k < 2 ^ 16)
    (hend : min rom.length 65536 ≤ s.pc.toNat + k) :
    s.iRead (s.pc + BitVec.ofNat 16 k) = .raise (.fetchOutOfRange (s.pc.toNat + k)) := by
  have hidx : s.streamIndex (s.pc + BitVec.ofNat 16 k) = s.pc.toNat + k := by
    rw [State.streamIndex_add s hk, State.pcIndex_of_iRead hsrc hread]
  rw [State.iRead_rom_raise hsrc (by rwa [hidx]), hidx]

theorem State.iRead_ofNat_ok_of_lt (hsrc : s.src = .rom rom) (hread : s.iRead s.pc = .ok op) (hk : k < 2 ^ 16)
    (hlt : s.pc.toNat + k < min rom.length 65536) : ∃ b, s.iRead (s.pc + BitVec.ofNat 16 k) = .ok b := by
  have hidx : s.streamIndex (s.pc + BitVec.ofNat 16 k) = s.pc.toNat + k := by
    rw [State.streamIndex_add s hk, State.pcIndex_of_iRead hsrc hread]
  have hlen : s.pc.toNat + k < rom.length := by omega
  exact ⟨rom[s.pc.toNat + k], State.iRead_rom_ok hsrc (by omega) (by rw [hidx, List.getElem?_eq_getElem hlen])⟩

end fromPc

end Sys2Proof.Machine
end

section
/-!
Family 42_load.md, the three forms: each is fetched, has its effect, or takes the fault of its first missing operand byte.
-/
namespace Sys2Proof.Machine

/-- The state after a fault at an operand byte or an unknown opcode, field by field (R196). -/
theorem advancePC_one_takeFault_eq (s : State) (r : FaultRecord) :
    (s.advancePC 1).takeFault r =
      { s with pc := s.pc + 1#16, runState := .faulted, fault := some r, pastTop := s.pastTopAfter 1 } := rfl

/-- The state after a load, field by field, with the closed form of R130. -/
theorem advancePC_loadA_eq (s : State) (n : Nat) (v : Byte) :
    (s.advancePC n).loadA v =
      { s with
        a := v
        p := Claims.flagsAfter s.p v
        pc := s.pc + BitVec.ofNat 16 n
        pastTop := s.pastTopAfter n } := by
  rw [State.loadA_eq]
  rfl

/-! ## The steps of the two formats with operand bytes (R82, R83) -/

section op8
variable {s : State} {op : Byte} {mk : Byte → Instr} (hdec : ∀ rest, decode (op :: rest) = decodeOp8 mk rest)
include hdec

theorem step_of_op8_ok {d8 : Byte} (hrun : s.runState = .running) (hread : s.iRead s.pc = .ok op)
    (hoperand : s.iRead (s.pc + 1#16) = .ok d8) : step s = exec (mk d8) s := by
  refine step_of_fetch_instr hrun (rest := s.streamBytes (s.pc + 1#16 + 1#16) 1) ?_
  rw [State.fetch_of_iRead hread, hdec, State.streamBytes_ok hoperand]
  rfl

theorem step_of_op8_raise {r : FaultRecord} (hrun : s.runState = .running) (hread : s.iRead s.pc = .ok op)
    (hoperand : s.iRead (s.pc + 1#16) = .raise r) : step s = .next ((s.advancePC 1).takeFault r) := by
  refine step_of_operand_raise hrun (k := 1) ?_ (by decide) (by decide) hoperand
  rw [State.fetch_of_iRead hread, hdec, State.streamBytes_raise hoperand]
  rfl

end op8

section op16
variable {s : State} {lo hi : Byte} (hrun : s.runState = .running) (hread : s.iRead s.pc = .ok opLdaAbs)
include hrun hread

theorem step_of_ldaAbs_ok (hlo : s.iRead (s.pc + 1#16) = .ok lo) (hhi : s.iRead (s.pc + 2#16) = .ok hi) :
    step s = exec (.ldaAbs (ofBytes hi lo)) s := by
  refine step_of_fetch_instr hrun (rest := []) ?_
  rw [State.fetch_of_iRead hread, State.streamBytes_ok hlo, State.streamBytes_second_ok hhi]
  rfl

theorem step_of_ldaAbs_raise_low {r : FaultRecord} (hlo : s.iRead (s.pc + 1#16) = .raise r) :
    step s = .next ((s.advancePC 1).takeFault r) := by
  refine step_of_operand_raise hrun (k := 1) ?_ (by decide) (by decide) hlo
  rw [State.fetch_of_iRead hread, State.streamBytes_raise hlo]
  rfl

theorem step_of_ldaAbs_raise_high {r : FaultRecord} (hlo : s.iRead (s.pc + 1#16) = .ok lo)
    (hhi : s.iRead (s.pc + 2#16) = .raise r) : step s = .next ((s.advancePC 1).takeFault r) := by
  refine step_of_operand_raise hrun (k := 2) ?_ (by decide) (by decide) hhi
  rw [State.fetch_of_iRead hread, State.streamBytes_ok hlo, State.streamBytes_second_raise hhi]
  rfl

end op16

theorem decode_ldaImm (rest : List Byte) : decode (0xA9#8 :: rest) = decodeOp8 .ldaImm rest := rfl

theorem decode_ldaZp (rest : List Byte) : decode (0xA5#8 :: rest) = decodeOp8 .ldaZp rest := rfl

/-- Settles O13: the load of the operand byte two positions on, or the fault of that byte's read, which under `interpret`
is raised at `pc0 + 1`. -/
theorem ldaImmediateLoadsItsOperandByte : Obligations.LdaImmediateLoadsItsOperandByte := by
  refine ⟨fun _ _ => rfl, fun imm s => ⟨s.pastTopAfter 2, ?loads⟩, fun s imm => step_of_op8_ok decode_ldaImm,
    fun s r hrun hread hraise => ⟨s.pastTopAfter 1, step_of_op8_raise decode_ldaImm hrun hread hraise⟩,
    fun s rom hrun hsrc hread hend => ⟨s.pastTopAfter 1, step_of_op8_raise decode_ldaImm hrun hread ?missing⟩⟩
  case loads =>
    rw [exec_eq, State.perform, advancePC_loadA_eq]
    rfl
  case missing => exact State.iRead_ofNat_raise_of_end hsrc hread (by decide) hend

/-- Settles O14: the load of the zero-page byte two positions on, or the fault of the operand byte's read, which under
`interpret` is raised at `pc0 + 1`. -/
theorem ldaZeroPageLoadsFromTheZeroPage : Obligations.LdaZeroPageLoadsFromTheZeroPage := by
  refine ⟨fun _ _ => rfl, fun zz s => ⟨s.pastTopAfter 2, ?loads⟩, fun s zz => step_of_op8_ok decode_ldaZp,
    fun s r hrun hread hraise => ⟨s.pastTopAfter 1, step_of_op8_raise decode_ldaZp hrun hread hraise⟩,
    fun s rom hrun hsrc hread hend => ⟨s.pastTopAfter 1, step_of_op8_raise decode_ldaZp hrun hread ?missing⟩⟩
  case loads =>
    rw [exec_eq, State.perform, advancePC_loadA_eq, eaZeroPage, zext16_eq_ofNat]
    rfl
  case missing => exact State.iRead_ofNat_raise_of_end hsrc hread (by decide) hend

theorem ofBytes_eq_ofNat (hi lo : Byte) : ofBytes hi lo = BitVec.ofNat 16 (lo.toNat + 256 * hi.toNat) := by
  rw [← ofBytes_toNat, BitVec.ofNat_toNat, BitVec.setWidth_eq]

/-- Settles O15: the load from the composed address three positions on, or the fault of the first operand byte that cannot
be read. -/
theorem ldaAbsoluteLoadsFromItsAddress : Obligations.LdaAbsoluteLoadsFromItsAddress := by
  refine ⟨fun lo hi rest => ?decodes, fun a16 s => ⟨s.pastTopAfter 3, ?loads⟩, fun s lo hi hrun hread hlo hhi => ?runs,
    fun s r hrun hread hraise => ⟨s.pastTopAfter 1, ?raises⟩, fun s rom hrun hsrc hread hend => ⟨s.pastTopAfter 1, ?lowMissing⟩,
    fun s rom hrun hsrc hread hend => ⟨s.pastTopAfter 1, ?highMissing⟩⟩
  case decodes =>
    rw [← ofBytes_eq_ofNat]
    rfl
  case loads =>
    rw [exec_eq, State.perform, advancePC_loadA_eq]
    rfl
  case runs =>
    rw [← ofBytes_eq_ofNat]
    exact step_of_ldaAbs_ok hrun hread hlo hhi
  case raises =>
    obtain hlo | ⟨lo, hlo, hhi⟩ := hraise
    · exact step_of_ldaAbs_raise_low hrun hread hlo
    · exact step_of_ldaAbs_raise_high hrun hread hlo hhi
  case lowMissing =>
    exact step_of_ldaAbs_raise_low hrun hread (State.iRead_ofNat_raise_of_end hsrc hread (by decide) hend)
  case highMissing =>
    obtain ⟨lo, hlo⟩ := State.iRead_ofNat_ok_of_lt (k := 1) hsrc hread (by decide) (by omega)
    exact step_of_ldaAbs_raise_high hrun hread hlo (State.iRead_ofNat_raise_of_end hsrc hread (by decide) hend.le)

end Sys2Proof.Machine
end

section
/-!
What a step changes and what it keeps: frames, flags, faults, and the independence from Y, SP and the flags.
-/
namespace Sys2Proof.Machine

/-! ## One instruction -/

/-- The flag unit keeps the six bits that 0x7D selects (R26). -/
theorem znFlags_and_reserved (p v : Byte) : znFlags p v &&& 0x7D#8 = p &&& 0x7D#8 := by
  refine BitVec.eq_of_getLsbD_eq fun j hj => ?_
  rw [BitVec.getLsbD_and, BitVec.getLsbD_and, znFlags_getLsbD]
  interval_cases j <;> simp

/-- The two written bits come from the value alone (R130). -/
theorem znFlags_and_zn (p q v : Byte) : znFlags p v &&& 0x82#8 = znFlags q v &&& 0x82#8 := by
  refine BitVec.eq_of_getLsbD_eq fun j hj => ?_
  rw [BitVec.getLsbD_and, BitVec.getLsbD_and, znFlags_getLsbD, znFlags_getLsbD]
  interval_cases j <;> simp

theorem znFlags_show (p v : Byte) :
    ((znFlags p v).getLsbD 1 = true ↔ v = 0x00#8) ∧ (znFlags p v).getLsbD 7 = v.getLsbD 7 :=
  ⟨(flagUnitWritesZeroAndNegativeOnly.2.1 p v).1, by rw [znFlags_getLsbD, if_pos rfl]⟩

theorem State.perform_p_getLsbD (i : Instr) (s : State) {j : Nat} (h1 : j ≠ 1) (h7 : j ≠ 7) :
    (s.perform i).p.getLsbD j = s.p.getLsbD j := by
  rw [State.perform_p]
  cases s.flagValue i with
  | none => rfl
  | some v => rw [znFlags_getLsbD, if_neg h7, if_neg h1]

theorem State.perform_p_and_reserved (i : Instr) (s : State) : (s.perform i).p &&& 0x7D#8 = s.p &&& 0x7D#8 := by
  rw [State.perform_p]
  cases s.flagValue i with
  | none => rfl
  | some v => exact znFlags_and_reserved s.p v

theorem State.pastTopAfter_mem {s : State} (h : s.src = .mem) (n : Nat) : s.pastTopAfter n = s.pastTop := by
  rw [State.pastTopAfter, h]

/-- Settles O20: moving `pc` and the instruction's effect leave these alone, form by form. -/
theorem instructionFrame : Obligations.InstructionFrame := by
  intro i s t hexec
  obtain rfl := exec_eq_next_iff.1 hexec
  refine ⟨by simp, by simp, by simp, by simp, fun addr => by simp, fun j h1 h7 => ?bits, fun hsrc => ?note, ?form⟩
  case bits => rw [State.perform_p_getLsbD i _ h1 h7, State.advancePC_p]
  case note => rw [State.perform_pastTop, State.advancePC_pastTop, State.pastTopAfter_mem hsrc]
  case form =>
    cases i with
    | brk => exact ⟨rfl, rfl, rfl⟩
    | ldaZp _ | ldaImm _ | tax | ldaAbs _ | inx => exact ⟨rfl, rfl⟩

/-- Settles O21: the flag unit was called with the value that the register now holds. -/
theorem flagsAreThoseOfTheRegisterWritten : Obligations.FlagsAreThoseOfTheRegisterWritten := by
  intro i s t hexec
  obtain rfl := exec_eq_next_iff.1 hexec
  cases i with
  | brk => trivial
  | ldaZp _ | ldaImm _ | tax | ldaAbs _ | inx => exact znFlags_show _ _

/-! ## The step -/

/-- Settles O25: the decoder refuses the byte whatever follows, and the step takes that fault past it. -/
theorem illegalOpcodeIsTakenAsAFault : Obligations.IllegalOpcodeIsTakenAsAFault := by
  intro s op hrun hread hop
  have hfetch : s.fetch = .unimplemented op := by
    rw [State.fetch_of_iRead hread, decode_unimplemented_of_not_legal hop]
  exact ⟨s.pastTopAfter 1, step_of_fetch_unimplemented hrun hfetch⟩

theorem add_one_ne_self (pc : Addr) : pc + 1#16 ≠ pc := by
  bv_omega

theorem State.pcIndex_eq (s : State) : s.pcIndex = (if s.pastTop then 65536 else 0) + s.pc.toNat := by
  rw [State.pcIndex]
  split <;> omega

/-- Settles O28: the three faults of fetching, each at its position and with its advance. -/
theorem faultsArePrecise : Obligations.FaultsArePrecise := by
  intro s t hstep hfaulted
  obtain ⟨n, r, hfault, rfl⟩ := step_effect_of_faulted hstep hfaulted
  refine ⟨r, rfl, ?pc, rfl, ?kind⟩
  case pc =>
    cases hfault with
    | unimplemented op => exact .inr rfl
    | opcodeMissing => exact .inl (BitVec.add_zero _)
    | operandMissing k hpos hk => exact .inr rfl
  case kind =>
    rw [← State.pcIndex_eq]
    cases hfault with
    | unimplemented op => exact .inl ⟨op, rfl, rfl⟩
    | opcodeMissing => exact .inr ⟨0, by decide, rfl, iff_of_true (BitVec.add_zero _) rfl⟩
    | operandMissing k hpos hk => exact .inr ⟨k, hk, rfl, iff_of_false (add_one_ne_self s.pc) hpos⟩

/-- Settles O29: the step is the fetched instruction's, whose `pc` moves by its length. -/
theorem pcAdvancesByTheInstructionLength : Obligations.PcAdvancesByTheInstructionLength := by
  intro s t i rest hstep hfetch
  have hexec : exec i s = .next t := (step_of_fetch_instr (step_effect hstep).1 hfetch).symm.trans hstep
  obtain rfl := exec_eq_next_iff.1 hexec
  refine ⟨?_, encode_length i⟩
  rw [State.perform_pc, State.advancePC_pc, encode_length, BitVec.toNat_add, BitVec.toNat_ofNat, Nat.add_mod_mod]

/-- Settles O30: the frame of a step, and the flag unit's. -/
theorem noStepChangesYSpMemoryOrReservedFlags : Obligations.NoStepChangesYSpMemoryOrReservedFlags := by
  intro s t hstep
  obtain ⟨hy, hsp, hmem, hsrc, -⟩ := step_frame hstep
  refine ⟨hy, hsp, hmem, hsrc, ?_⟩
  obtain ⟨-, ⟨i, rest, -, rfl⟩ | ⟨n, r, -, rfl⟩⟩ := step_effect hstep
  · exact State.perform_p_and_reserved i _
  · rfl

/-! ## What a step does not read -/

theorem State.streamBytes_congr {s t : State} (h : ∀ pos, t.iRead pos = s.iRead pos) (pos : Addr) (n : Nat) :
    t.streamBytes pos n = s.streamBytes pos n := by
  induction n generalizing pos with
  | zero => rfl
  | succ n ih => simp only [State.streamBytes, h, ih]

/-- Fetching reads the stream at `pc` and nothing else. -/
theorem State.fetch_congr {s t : State} (hsrc : t.src = s.src) (hmem : t.mem = s.mem) (hpc : t.pc = s.pc)
    (hpast : t.pastTop = s.pastTop) : t.fetch = s.fetch := by
  rw [State.fetch, State.fetch, hpc, State.streamBytes_congr (State.iRead_congr hsrc hmem hpc hpast)]

theorem exec_setY_setSP (i : Instr) (s : State) (y sp : Byte) :
    exec i ((s.setY y).setSP sp) = Claims.mapNext (fun t => (t.setY y).setSP sp) (exec i s) := by
  cases i <;> rfl

theorem faultFetch_setY_setSP (k : Nat) (s : State) (y sp : Byte) :
    faultFetch k ((s.setY y).setSP sp) = Claims.mapNext (fun t => (t.setY y).setSP sp) (faultFetch k s) := by
  cases k <;> rfl

/-- Settles O31: the fetch is the same, and so are the instruction's effect and the fault taken. -/
theorem noStepReadsYOrSp : Obligations.NoStepReadsYOrSp := by
  intro s y sp
  change step ((s.setY y).setSP sp) = Claims.mapNext (fun t => (t.setY y).setSP sp) (step s)
  have hfetch : ((s.setY y).setSP sp).fetch = s.fetch := State.fetch_congr rfl rfl rfl rfl
  cases hrun : s.runState with
  | idle | halted | faulted => simp [step, hrun, Claims.mapNext]
  | running =>
    rw [step_of_running hrun, step_of_running (s := (s.setY y).setSP sp) hrun, hfetch]
    cases s.fetch with
    | instr i rest => exact exec_setY_setSP i s y sp
    | unimplemented op => rfl
    | truncated k => exact faultFetch_setY_setSP k s y sp

/-- With another `P` an instruction has the same effect outside `P`. -/
theorem State.perform_setP (i : Instr) (s : State) (p : Byte) :
    (s.setP p).perform i = (s.perform i).setP ((s.setP p).perform i).p := by
  cases i <;> rfl

theorem State.flagValue_setP (i : Instr) (s : State) (p : Byte) : (s.setP p).flagValue i = s.flagValue i := by
  cases i <;> rfl

/-- With another `P`, Z and N come out the same, or neither `P` is written (R25). -/
theorem State.perform_setP_zn (i : Instr) (s : State) (p : Byte) :
    ((s.setP p).perform i).p &&& 0x82#8 = (s.perform i).p &&& 0x82#8 ∨
      (((s.setP p).perform i).p = p ∧ (s.perform i).p = s.p) := by
  rw [State.perform_p, State.perform_p, State.flagValue_setP]
  cases s.flagValue i with
  | none => exact .inr ⟨rfl, rfl⟩
  | some v => exact .inl (znFlags_and_zn p s.p v)

theorem faultFetch_setP (k : Nat) (s : State) (p : Byte) :
    faultFetch k (s.setP p) = Claims.mapNext (State.setP p) (faultFetch k s) := by
  cases k <;> rfl

theorem faultFetch_p {k : Nat} {s t : State} (h : faultFetch k s = .next t) : t.p = s.p := by
  cases k <;> cases h <;> rfl

/-- Settles O32: fetching and the value given to the flag unit do not read `P`; the six bits are the other `P`'s, and Z and
N come from that value or are not written. -/
theorem noStepReadsAFlag : Obligations.NoStepReadsAFlag := by
  intro s t p hstep
  change ∃ q, step (s.setP p) = .next (t.setP q) ∧ _
  have hrun := (step_effect hstep).1
  have hfetch : (s.setP p).fetch = s.fetch := State.fetch_congr rfl rfl rfl rfl
  cases hs : s.fetch with
  | instr i rest =>
    rw [step_of_fetch_instr hrun hs] at hstep
    rw [step_of_fetch_instr (s := s.setP p) hrun (hfetch.trans hs)]
    obtain rfl := exec_eq_next_iff.1 hstep
    exact ⟨_, exec_eq_next_iff.2 ((s.advancePC i.length).perform_setP i p).symm,
      State.perform_p_and_reserved i ((s.advancePC i.length).setP p), State.perform_setP_zn i (s.advancePC i.length) p⟩
  | unimplemented op =>
    rw [step_of_fetch_unimplemented hrun hs] at hstep
    cases hstep
    exact ⟨p, step_of_fetch_unimplemented (s := s.setP p) hrun (hfetch.trans hs), rfl, .inr ⟨rfl, rfl⟩⟩
  | truncated k =>
    rw [step_of_fetch_truncated hrun hs] at hstep
    rw [step_of_fetch_truncated (s := s.setP p) hrun (hfetch.trans hs), faultFetch_setP, hstep]
    exact ⟨p, rfl, rfl, .inr ⟨rfl, faultFetch_p hstep⟩⟩

/-! ## Both execution styles (R175) -/

/-- Without a memory operand the effect on the registers is made of registers. -/
theorem State.perform_registers_congr {s r : State} {i : Instr} (hmode : i.mode = .immediate ∨ i.mode = .noneAddressing)
    (ha : s.a = r.a) (hx : s.x = r.x) (hp : s.p = r.p) (hstate : s.runState = r.runState) :
    (s.perform i).a = (r.perform i).a ∧ (s.perform i).x = (r.perform i).x ∧ (s.perform i).p = (r.perform i).p ∧
      (s.perform i).runState = (r.perform i).runState := by
  cases i with
  | ldaZp _ | ldaAbs _ => simp [Instr.mode] at hmode
  | brk | ldaImm _ | tax | inx =>
    simp [State.perform, State.loadA, State.loadX, State.setZN_eq, ha, hx, hp, hstate]

/-- Settles O33: both steps have the same instruction's effect, behind the same number of bytes. -/
theorem bothStylesAgreeWithoutMemoryOperands : Obligations.BothStylesAgreeWithoutMemoryOperands := by
  intro s r i rest rest' hrun hrun' hfetch hfetch' hmode ha hx hy hp hsp
  obtain ⟨ha', hx', hp', hstate'⟩ := State.perform_registers_congr (s := s.advancePC i.length)
    (r := r.advancePC i.length) hmode ha hx hp (hrun.trans hrun'.symm)
  refine ⟨_, _, (step_of_fetch_instr hrun hfetch).trans (exec_eq i s),
    (step_of_fetch_instr hrun' hfetch').trans (exec_eq i r), ha', hx', ?_, hp', ?_, hstate', ?_⟩
  · simpa using hy
  · simpa using hsp
  · simp [add_sub_cancel_left]

/-! ## The model's own note of log 8 -/

/-- Under `interpret` an advance is noted when it comes out below where it began. -/
theorem State.pastTopAfter_iff (s : State) {n : Nat} (hn : n < 2 ^ 16) :
    s.pastTopAfter n = true ↔
      s.pastTop = true ∨ (s.src ≠ .mem ∧ (s.pc + BitVec.ofNat 16 n).toNat < s.pc.toNat) := by
  have hpc := s.pc.isLt
  cases hsrc : s.src with
  | mem => simp [State.pastTopAfter, hsrc]
  | rom rom =>
    have hwrap : 2 ^ 16 ≤ s.pc.toNat + n ↔ (s.pc + BitVec.ofNat 16 n).toNat < s.pc.toNat := by
      rw [BitVec.toNat_add, BitVec.toNat_ofNat, Nat.mod_eq_of_lt hn]
      omega
    rw [← hwrap]
    simp [State.pastTopAfter, hsrc]

theorem doLoad_pastTop (s : State) (program : List Byte) : (s.doLoad program).pastTop = s.pastTop := by
  rw [State.doLoad]
  split <;> rfl

theorem doLoadAndRun_pastTop (s : State) (program : List Byte) : (s.doLoadAndRun program).pastTop = s.pastTop := by
  rw [State.doLoadAndRun]
  split <;> exact doLoad_pastTop s program

/-- Settles O52: a step moves `pc` by at most three bytes and notes it as `pastTopAfter` says; of the host's actions
`interpret` alone writes the note. -/
theorem passingTheTopOfASequenceIsNoted : Obligations.PassingTheTopOfASequenceIsNoted := by
  refine ⟨fun s t hstep => ?step, fun s t act hact => ?host⟩
  case step =>
    obtain ⟨-, -, -, -, n, hn, hpc, hpast⟩ := step_frame hstep
    rw [hpast, hpc]
    exact s.pastTopAfter_iff (by omega)
  case host =>
    obtain ⟨-, -, rfl⟩ := hostAct_next hact
    cases act with
    | load program => exact doLoad_pastTop s program
    | loadAndRun program => exact doLoadAndRun_pastTop s program
    | write w => cases w <;> rfl
    | reset | run | interpret _ => rfl

end Sys2Proof.Machine
end

section
/-!
Family 20_memory.md: memory written by the host, byte by byte, word by word and program by program.
-/
namespace Sys2Proof.Machine

theorem Memory.read_write_of_ne {m : Memory} (h : m.wf = true) {addr q : Addr} (hq : q ≠ addr) (v : Byte) :
    (m.write addr v).read q = m.read q := by
  rw [Memory.read_write h, if_neg hq]

/-- Settles O5: outside Running the write is accepted, and it is one canonical write. -/
theorem byteWriteReadsBackAndChangesNothingElse : Obligations.ByteWriteReadsBackAndChangesNothingElse :=
  fun _ addr v ⟨hwf, _⟩ hrun => ⟨_, acceptedIfStopped_eq _ hrun, Memory.read_write_same hwf addr v,
    fun _ hq => Memory.read_write_of_ne hwf hq v, rfl⟩

section write16
variable {m : Memory} (hwf : m.wf = true) (addr v : Addr)
include hwf

theorem Memory.read_write16_high : (m.write16 addr v).read (addr + 1#16) = hiByte v :=
  Memory.read_write_same (Memory.write_wf hwf addr (loByte v)) (addr + 1#16) (hiByte v)

theorem Memory.read_write16_low : (m.write16 addr v).read addr = loByte v := by
  rw [Memory.write16, Memory.read_write_of_ne (Memory.write_wf hwf _ _) (add_one_ne_self addr).symm,
    Memory.read_write_same hwf]

theorem Memory.read_write16_of_ne {q : Addr} (hlow : q ≠ addr) (hhigh : q ≠ addr + 1#16) :
    (m.write16 addr v).read q = m.read q := by
  rw [Memory.write16, Memory.read_write_of_ne (Memory.write_wf hwf _ _) hhigh, Memory.read_write_of_ne hwf hlow]

theorem Memory.read16_write16 : (m.write16 addr v).read16 addr = v := by
  rw [Memory.read16, Memory.read_write16_high hwf, Memory.read_write16_low hwf, ofBytes_hiByte_loByte]

end write16

/-- Settles O6: the two bytes stand at two different addresses, at `0xFFFF` too. -/
theorem wordWriteIsLittleEndianAndReadsBack : Obligations.WordWriteIsLittleEndianAndReadsBack := by
  intro m addr v hwf
  refine ⟨?_, ?_, fun q => Memory.read_write16_of_ne hwf addr v, Memory.read16_write16 hwf addr v⟩
  · rw [Memory.read_write16_low hwf, loByte_toNat]
  · rw [Memory.read_write16_high hwf, hiByte_toNat]

/-- The copy loop of R223: byte `k` stands `k` addresses from the first, and what no byte reaches is as before. -/
theorem Memory.read_writeBytes {m : Memory} (hwf : m.wf = true) (addr q : Addr) {bytes : List Byte}
    (hlen : bytes.length ≤ 2 ^ 16) :
    (m.writeBytes addr bytes).read q = (bytes[(q - addr).toNat]?).getD (m.read q) := by
  induction bytes generalizing m addr with
  | nil => rfl
  | cons b bs ih =>
    rw [List.length_cons] at hlen
    rw [Memory.writeBytes, ih (Memory.write_wf hwf addr b) _ (by omega)]
    by_cases hq : q = addr
    · subst hq
      have hlast : (q - (q + 1#16)).toNat = 65535 := by bv_omega
      have hfirst : (q - q).toNat = 0 := by bv_omega
      rw [hlast, hfirst, List.getElem?_eq_none (by omega), Memory.read_write_same hwf]
      rfl
    · have hnext : (q - addr).toNat = (q - (addr + 1#16)).toNat + 1 := by bv_omega
      rw [hnext, List.getElem?_cons_succ, Memory.read_write_of_ne hwf hq]

/-! ## The memory `load` leaves (R223, R225) -/

section loaded
variable {m : Memory} (hwf : m.wf = true) (program : List Byte)
include hwf

theorem read_loadedMemory_vectorLow : (loadedMemory program m).read 0xFFFC#16 = 0x00#8 :=
  Memory.read_write16_low (Memory.writeBytes_wf hwf loadBase program) resetVector loadBase

theorem read_loadedMemory_vectorHigh : (loadedMemory program m).read 0xFFFD#16 = 0x80#8 :=
  Memory.read_write16_high (Memory.writeBytes_wf hwf loadBase program) resetVector loadBase

theorem read16_loadedMemory_vector : (loadedMemory program m).read16 resetVector = loadBase :=
  Memory.read16_write16 (Memory.writeBytes_wf hwf loadBase program) resetVector loadBase

/-- Outside the vector, the program's byte or what stood there. -/
theorem read_loadedMemory_of_ne {program : List Byte} (hlen : program.length ≤ 0x8000) {q : Addr}
    (hlow : q ≠ 0xFFFC#16) (hhigh : q ≠ 0xFFFD#16) :
    (loadedMemory program m).read q = (program[(q - 0x8000#16).toNat]?).getD (m.read q) :=
  (Memory.read_write16_of_ne (Memory.writeBytes_wf hwf _ _) resetVector loadBase hlow hhigh).trans
    (Memory.read_writeBytes hwf loadBase q (by omega))

theorem read_loadedMemory_program {program : List Byte} (hlen : program.length ≤ 0x8000) {k : Nat} {b : Byte}
    (hget : program[k]? = some b) (hlow : k ≠ 0x7FFC) (hhigh : k ≠ 0x7FFD) :
    (loadedMemory program m).read (BitVec.ofNat 16 (0x8000 + k)) = b := by
  obtain ⟨hk, -⟩ := List.getElem?_eq_some_iff.1 hget
  have hidx : (BitVec.ofNat 16 (0x8000 + k) - 0x8000#16).toNat = k := by bv_omega
  rw [read_loadedMemory_of_ne hwf hlen (by bv_omega) (by bv_omega), hidx, hget, Option.getD_some]

theorem read_loadedMemory_outside {program : List Byte} (hlen : program.length ≤ 0x8000) {q : Addr}
    (hlow : q ≠ 0xFFFC#16) (hhigh : q ≠ 0xFFFD#16) (hout : q.toNat < 0x8000 ∨ 0x8000 + program.length ≤ q.toNat) :
    (loadedMemory program m).read q = m.read q := by
  have hidx : program.length ≤ (q - 0x8000#16).toNat := by bv_omega
  rw [read_loadedMemory_of_ne hwf hlen hlow hhigh, List.getElem?_eq_none hidx, Option.getD_none]

end loaded

end Sys2Proof.Machine
end

section
/-!
Family 70_reset_and_hazards.md and 10_state.md section 8: power-on, `reset`, the entry points and direct access.
-/
namespace Sys2Proof.Machine

theorem not_running_of_sound {s : State} (h : s.runState = .idle ∨ s.runState = .halted) : s.runState ≠ .running := by
  obtain h | h := h <;> rw [h] <;> exact RunState.noConfusion

theorem hostAct_load_fits {s : State} {program : List Byte} (hstate : s.runState = .idle ∨ s.runState = .halted)
    (hlen : program.length ≤ 0x8000) :
    hostAct (.load program) s = .next (s.setMem (loadedMemory program s.mem)) := by
  rw [hostAct, acceptedIfSound_eq _ hstate, doLoad_accepted hlen]

theorem hostAct_reset {s : State} (hstate : s.runState ≠ .running) : hostAct .reset s = .next s.doReset :=
  acceptedIfStopped_eq _ hstate

theorem hostAct_run {s : State} (hstate : s.runState = .idle ∨ s.runState = .halted) : hostAct .run s = .next s.doRun :=
  acceptedIfSound_eq _ hstate

/-- Settles O36: the program is copied and the vector written over it, and memory is all that changes. -/
theorem loadStoresTheProgramAndTheVector : Obligations.LoadStoresTheProgramAndTheVector :=
  fun _ program ⟨hwf, _⟩ hstate hlen => ⟨_, hostAct_load_fits hstate hlen, rfl,
    read_loadedMemory_vectorLow hwf program, read_loadedMemory_vectorHigh hwf program,
    fun _ _ hget hlow hhigh => read_loadedMemory_program hwf hlen hget hlow hhigh,
    fun _ hlow hhigh hout => read_loadedMemory_outside hwf hlen hlow hhigh hout⟩

/-- Settles O37: both actions take the fault of a load that does not fit. -/
theorem tooLongLoadIsAFaultAndWritesNothing : Obligations.TooLongLoadIsAFaultAndWritesNothing := by
  intro s program hstate hlong
  rw [hostAct, hostAct, doLoadAndRun_tooLong hlong, acceptedIfSound_eq _ hstate, doLoad_tooLong hlong]
  exact ⟨rfl, rfl⟩

/-- Settles O38: the three actions compose to the one, the vector read back is the load base, and the program's first byte
stands there. -/
theorem loadAndRunIsLoadThenResetThenRun : Obligations.LoadAndRunIsLoadThenResetThenRun := by
  intro s program hinv hstate hlen
  have hwf := hinv.1
  refine ⟨_, _, _, hostAct_load_fits hstate hlen, hostAct_reset (not_running_of_sound hstate), hostAct_run (.inl rfl),
    ?composed,
    rfl, rfl, rfl, rfl, rfl, ?pc, rfl, rfl, fun b rest hprogram => ?firstByte⟩
  case composed => rw [hostAct, acceptedIfSound_eq _ hstate, doLoadAndRun_accepted hlen, doLoad_accepted hlen]
  case pc => exact read16_loadedMemory_vector hwf program
  case firstByte =>
    have hpc : (s.setMem (loadedMemory program s.mem)).doReset.doRun.pc = 0x8000#16 :=
      read16_loadedMemory_vector hwf program
    rw [hpc, State.iRead_mem rfl]
    exact congrArg Checked.ok
      (read_loadedMemory_program hwf hlen (k := 0) (by rw [hprogram]; rfl) (by decide) (by decide))

/-- Settles O42: the byte written at `pc` is the one fetched there, and it decodes without an operand. -/
theorem hostWriteIsSeenByTheNextFetch : Obligations.HostWriteIsSeenByTheNextFetch := by
  intro s i hinv hstate hmode
  refine ⟨_, _, acceptedIfStopped_eq (s.doWrite _) (not_running_of_sound hstate), hostAct_run hstate, ?_⟩
  have hread : (s.setMem (s.mem.write s.pc i.opcode)).doRun.iRead s.pc = .ok i.opcode := by
    rw [State.iRead_mem rfl]
    exact congrArg Checked.ok (Memory.read_write_same hinv.1 s.pc i.opcode)
  have hencode : encode i = [i.opcode] := by
    cases i with
    | brk | tax | inx => rfl
    | ldaZp _ | ldaImm _ | ldaAbs _ => cases hmode
  refine step_of_iRead_opcode (fun rest => ?_) rfl hread
  have hdec := decode_encode_append i rest
  rwa [hencode] at hdec

/-- Settles O34: every field is the literal it is claimed to be, and the vector of an empty memory is `0x0000`. -/
theorem powerOnStateIsAllZero : Obligations.PowerOnStateIsAllZero :=
  ⟨rfl, rfl, rfl, rfl, rfl, rfl, Memory.read_nil, rfl, rfl, rfl⟩

/-- Settles O35: the vector is read low byte first. -/
theorem resetZeroesAXPAndReadsTheVector : Obligations.ResetZeroesAXPAndReadsTheVector := by
  intro s hrun
  rw [hostAct, acceptedIfStopped_eq _ hrun, ← ofBytes_eq_ofNat]
  rfl

/-- Settles O39: both entries are accepted and change the fields named. -/
theorem runAndInterpretEntries : Obligations.RunAndInterpretEntries :=
  fun _ _ hstate => ⟨acceptedIfSound_eq _ hstate, acceptedIfSound_eq _ hstate⟩

theorem acceptedIfStopped_next_iff {s t : State} : (∃ u, acceptedIfStopped s t = .next u) ↔ s.runState ≠ .running :=
  ⟨fun ⟨_, h⟩ => (acceptedIfStopped_next h).1, fun h => ⟨t, acceptedIfStopped_eq t h⟩⟩

theorem acceptedIfSound_next_iff {s t : State} :
    (∃ u, acceptedIfSound s t = .next u) ↔ s.runState = .idle ∨ s.runState = .halted := by
  refine ⟨fun ⟨u, h⟩ => ?_, fun h => ⟨t, acceptedIfSound_eq t h⟩⟩
  obtain ⟨hrun, hfaulted, -⟩ := acceptedIfSound_next h
  cases hs : s.runState with
  | idle => exact .inl rfl
  | halted => exact .inr rfl
  | running => exact absurd hs hrun
  | faulted => exact absurd hs hfaulted

theorem acceptedIfStopped_next_or_refused (s t : State) :
    (∃ u, acceptedIfStopped s t = .next u) ∨ ∃ r, acceptedIfStopped s t = .refused r := by
  unfold acceptedIfStopped
  cases s.runState <;> simp

theorem acceptedIfSound_next_or_refused (s t : State) :
    (∃ u, acceptedIfSound s t = .next u) ∨ ∃ r, acceptedIfSound s t = .refused r := by
  unfold acceptedIfSound
  cases s.runState <;> simp

theorem hostRead_eq_none_iff (q : HostQuery) (s : State) : hostRead q s = none ↔ s.runState = .running := by
  unfold hostRead
  split <;> simp [*]

/-- Settles O40: each action is one of R232's two rows. -/
theorem entryPointsAreAcceptedAsTabled : Obligations.EntryPointsAreAcceptedAsTabled := by
  intro s act
  cases act with
  | reset | write _ =>
    exact ⟨acceptedIfStopped_next_iff, acceptedIfStopped_next_or_refused s _, fun q => hostRead_eq_none_iff q s⟩
  | load _ | run | loadAndRun _ | interpret _ =>
    exact ⟨acceptedIfSound_next_iff, acceptedIfSound_next_or_refused s _, fun q => hostRead_eq_none_iff q s⟩

/-- Settles O41: a write is accepted as an assignment, and a read shows the field. -/
theorem hostReadsAndAssignsRegisters : Obligations.HostReadsAndAssignsRegisters := by
  intro s v w addr hrun
  have hwrite (u : HostWrite) : hostAct (.write u) s = .next (s.doWrite u) := acceptedIfStopped_eq _ hrun
  have hshow (q : HostQuery) : hostRead q s = some _ := if_neg hrun
  exact ⟨hwrite (.a v), hwrite (.x v), hwrite (.y v), hwrite (.p v), hwrite (.sp v), hwrite (.pc w), hshow .a, hshow .x,
    hshow .y, hshow .p, hshow .sp, hshow .pc, hshow (.mem8 addr), hshow .runState, hshow .fault⟩

/-- Settles O27: the table, row by row. -/
theorem faultRecordsHaveTheirCodesAndInfo : Obligations.FaultRecordsHaveTheirCodesAndInfo :=
  fun _ _ _ _ => ⟨⟨rfl, rfl⟩, ⟨rfl, rfl⟩, ⟨rfl, rfl⟩, ⟨rfl, rfl⟩⟩

/-- Settles O11: the ZeroPage,Y sum wraps before it is extended, and under `run` no operand read raises. -/
theorem zeroPageYWrapsAndNoneAddressingIsAFault : Obligations.ZeroPageYWrapsAndNoneAddressingIsAFault := by
  refine ⟨fun s d8 hread => ⟨_, State.withOperand8_ok hread _, eaZeroPageIndexed_toNat d8 s.y⟩, fun _ => rfl,
    fun s mode hsrc hmode => ?_⟩
  cases hea : s.effectiveAddress mode with
  | ok ea => exact ⟨ea, rfl⟩
  | raise r =>
    obtain ⟨hnone, -⟩ | hlow | hhigh := State.effectiveAddress_raise hea
    · exact absurd hnone hmode
    · rw [State.iRead_mem hsrc] at hlow
      cases hlow
    · rw [State.iRead_mem hsrc] at hhigh
      cases hhigh

end Sys2Proof.Machine
end

section
/-!
Family 46_dispatch_loop.md section 3: runs of any length, what they keep, and the end of those under `interpret`.
-/
namespace Sys2Proof.Machine

/-- In Running the loop goes on behind one step (R165). -/
theorem runLoop_succ_of_running {s : State} (hrun : s.runState = .running) (fuel : Nat) :
    ∃ t, step s = .next t ∧ runLoop (fuel + 1) s = runLoop fuel t :=
  ⟨_, stepIsTheSpecsDispatchLoop s hrun, runLoop_succ (stepIsTheSpecsDispatchLoop s hrun) fuel⟩

theorem runLoop_add (n k : Nat) (s : State) : runLoop (n + k) s = runLoop k (runLoop n s) := by
  induction n generalizing s with
  | zero => rw [Nat.zero_add, runLoop]
  | succ n ih =>
    by_cases hrun : s.runState = .running
    · obtain ⟨t, hstep, hloop⟩ := runLoop_succ_of_running hrun n
      rw [hloop, Nat.succ_add, runLoop_succ hstep, ih]
    · simp only [runLoop_of_not_running hrun]

theorem not_running_of_ended {s : State} (h : Ended s) : s.runState ≠ .running := by
  obtain h | h := h <;> rw [h] <;> exact RunState.noConfusion

/-- Settles O47: the further fuel is spent on the ended state, which takes no step. -/
theorem anEndedRunHasOneFinalState : Obligations.AnEndedRunHasOneFinalState := by
  intro s n k hended
  rw [runLoop_add, runLoop_of_not_running (not_running_of_ended hended)]

/-- What every step keeps, a run of any length keeps. -/
theorem runLoop_keeps {α : Type} {field : State → α} (h : ∀ s t, step s = .next t → field t = field s) (n : Nat)
    (s : State) : field (runLoop n s) = field s := by
  induction n generalizing s with
  | zero => rfl
  | succ n ih =>
    by_cases hrun : s.runState = .running
    · obtain ⟨t, hstep, hloop⟩ := runLoop_succ_of_running hrun n
      rw [hloop, ih, h s t hstep]
    · rw [runLoop_of_not_running hrun]

theorem step_fault_of_not_faulted {s t : State} (h : step s = .next t) (hok : t.runState ≠ .faulted) :
    t.fault = s.fault := by
  obtain ⟨i, rest, -, rfl⟩ := step_effect_of_not_faulted h hok
  simp

/-- A run that has met no fault has taken no step into Faulted, which is terminal, and so has kept the record. -/
theorem runLoop_fault_of_safe (n : Nat) (s : State) (hsafe : SafeFor n s) : (runLoop n s).fault = s.fault := by
  induction n generalizing s with
  | zero => rfl
  | succ n ih =>
    by_cases hrun : s.runState = .running
    · obtain ⟨t, hstep, hloop⟩ := runLoop_succ_of_running hrun n
      rw [SafeFor, hloop] at hsafe
      have hok : t.runState ≠ .faulted := by
        intro hfaulted
        rw [runLoop_of_not_running (not_running_of_ended (.inr hfaulted))] at hsafe
        exact hsafe hfaulted
      rw [hloop, ih t hsafe, step_fault_of_not_faulted hstep hok]
    · rw [runLoop_of_not_running hrun]

/-- Settles O48: the frame of a step carries over to runs. -/
theorem noRunChangesMemoryYOrSp : Obligations.NoRunChangesMemoryYOrSp := fun s n =>
  ⟨runLoop_keeps (field := State.mem) (fun _ _ => step_mem) n s,
    runLoop_keeps (field := State.y) (fun _ _ h => (step_frame h).1) n s,
    runLoop_keeps (field := State.sp) (fun _ _ h => (step_frame h).2.1) n s, runLoop_fault_of_safe n s⟩

/-- Settles O51: each step is an INX, and memory is full of them behind it too. -/
theorem memoryFullOfIncrementsNeverHalts : Obligations.MemoryFullOfIncrementsNeverHalts := by
  intro s n hrun hsrc hmem
  induction n generalizing s with
  | zero => exact ⟨hrun, (BitVec.add_zero _).symm, (BitVec.add_zero _).symm, rfl⟩
  | succ n ih =>
    have hread : s.iRead s.pc = .ok 0xE8#8 := by rw [State.iRead_mem hsrc, hmem]
    have hstep := (step_of_iRead_opcode decode_inx hrun hread).trans (exec_inx s)
    obtain ⟨hrun', hx, hpc, ha⟩ := ih ((s.advancePC 1).loadX (s.x + 0x01#8)) hrun hsrc hmem
    rw [runLoop_succ hstep]
    refine ⟨hrun', hx.trans ?_, hpc.trans ?_, ha⟩
    · rw [Nat.add_comm n 1, BitVec.ofNat_add, ← BitVec.add_assoc]
      rfl
    · rw [Nat.add_comm n 1, BitVec.ofNat_add, ← BitVec.add_assoc]
      rfl

/-! ## The end of a sequence (R70, R171) -/

/-- The bytes the decoder sees under `interpret` stand within the sequence's first 65536 bytes. -/
theorem State.streamBytes_length_rom {s : State} {rom : List Byte} (hsrc : s.src = .rom rom) {k n : Nat}
    (hk : k + n < 2 ^ 16) (hne : s.streamBytes (s.pc + BitVec.ofNat 16 k) n ≠ []) :
    s.pcIndex + k + (s.streamBytes (s.pc + BitVec.ofNat 16 k) n).length ≤ 65536 := by
  induction n generalizing k with
  | zero => exact absurd rfl hne
  | succ n ih =>
    cases hread : s.iRead (s.pc + BitVec.ofNat 16 k) with
    | raise r => exact absurd (State.streamBytes_raise hread n) hne
    | ok b =>
      have hidx := State.streamIndex_lt_of_iRead hsrc hread
      rw [State.streamIndex_add s (by omega)] at hidx
      have hnext : s.pc + BitVec.ofNat 16 k + 1#16 = s.pc + BitVec.ofNat 16 (k + 1) := by
        rw [BitVec.add_assoc, ← BitVec.ofNat_add]
      rw [State.streamBytes_ok hread, hnext, List.length_cons]
      by_cases hrest : s.streamBytes (s.pc + BitVec.ofNat 16 (k + 1)) n = []
      · rw [hrest, List.length_nil]
        omega
      · have := ih (by omega) hrest
        omega

/-- An instruction fetched under `interpret` ends within the sequence's first 65536 bytes. -/
theorem State.pcIndex_add_length_le {s : State} {rom rest : List Byte} {i : Instr} (hsrc : s.src = .rom rom)
    (hfetch : s.fetch = .instr i rest) : s.pcIndex + i.length ≤ 65536 := by
  have hbytes : s.streamBytes (s.pc + BitVec.ofNat 16 0) 3 = encode i ++ rest := by
    rw [BitVec.add_zero]
    exact eq_encode_append_of_decode hfetch
  have := State.streamBytes_length_rom hsrc (k := 0) (n := 3) (by decide) (by rw [hbytes]; exact List.cons_ne_nil _ _)
  rw [hbytes, List.length_append, encode_length] at this
  omega

theorem one_le_length (i : Instr) : 1 ≤ i.length :=
  Nat.le_add_right 1 _

/-- A step under `interpret` that goes on comes to a later position, at most the one behind the last. -/
theorem step_pcIndex_of_running {s t : State} {rom : List Byte} (hsrc : s.src = .rom rom) (hstep : step s = .next t)
    (hrun : t.runState = .running) :
    t.src = .rom rom ∧ s.pcIndex < t.pcIndex ∧ t.pcIndex ≤ 65536 := by
  obtain ⟨i, rest, hfetch, rfl⟩ := step_effect_of_not_faulted hstep (by rw [hrun]; exact RunState.noConfusion)
  have hend := State.pcIndex_add_length_le hsrc hfetch
  have hlen := one_le_length i
  have hidx : ((s.advancePC i.length).perform i).pcIndex = s.pcIndex + i.length := by
    rw [State.pcIndex, State.perform_pc, State.perform_pastTop]
    exact State.pcIndex_advancePC hsrc ((length_le_three i).trans_lt (by decide)) (by omega)
  exact ⟨by simpa using hsrc, by omega, by omega⟩

/-- At or past the end of what a sequence offers, the opcode fetch is the fault. -/
theorem step_at_end {s : State} {rom : List Byte} (hrun : s.runState = .running) (hsrc : s.src = .rom rom)
    (hend : min rom.length 65536 ≤ s.pcIndex) : step s = .next (s.takeFault (.fetchOutOfRange s.pcIndex)) := by
  rw [← State.streamIndex_pc] at hend ⊢
  exact step_of_iRead_opcode_raise hrun (State.iRead_rom_raise hsrc hend)

/-- A run whose position is at most `n` bytes before the end has ended after `n + 1` steps. -/
theorem ended_runLoop_of_distance {rom : List Byte} (n : Nat) (s : State) (hrun : s.runState = .running)
    (hsrc : s.src = .rom rom) (hdist : min rom.length 65536 ≤ s.pcIndex + n) : Ended (runLoop (n + 1) s) := by
  induction n generalizing s with
  | zero =>
    rw [runLoop_succ (step_at_end hrun hsrc hdist)]
    exact .inr rfl
  | succ n ih =>
    obtain ⟨t, hstep, hloop⟩ := runLoop_succ_of_running hrun (n + 1)
    rw [hloop]
    obtain hrun' | hended := stepIsDefinedExactlyWhileRunning.2.1 s t hstep
    · obtain ⟨hsrc', hlt, -⟩ := step_pcIndex_of_running hsrc hstep hrun'
      exact ih t hrun' hsrc' (by omega)
    · rw [runLoop_of_not_running (not_running_of_ended hended)]
      exact hended

/-- Settles O49: every step that goes on comes nearer to the end, where the fetch faults. -/
theorem interpretedRunsEnd : Obligations.InterpretedRunsEnd :=
  fun s _ hrun hsrc => ended_runLoop_of_distance _ s hrun hsrc (Nat.le_add_left _ _)

/-- Settles O50: the position grows to at most 65536, so a lower `pc` is that position, and the next fetch is at the end
of whatever sequence. -/
theorem sequencePositionsDoNotWrap : Obligations.SequencePositionsDoNotWrap := by
  intro s t rom hsrc hstep hrun hlower
  obtain ⟨hsrc', hlt, htop⟩ := step_pcIndex_of_running hsrc hstep hrun
  have hs := s.pcIndex_eq
  have ht := t.pcIndex_eq
  have hpast : t.pastTop = true := by
    by_contra hpast
    rw [if_neg hpast] at ht
    omega
  rw [if_pos hpast] at ht
  have hpc : t.pc = 0x0000#16 := by bv_omega
  have hidx : t.pcIndex = 65536 := by rw [ht, hpc]; rfl
  refine ⟨hpc, ?_⟩
  rw [step_at_end hrun hsrc' (by omega), hidx]
  rfl

end Sys2Proof.Machine
end
